-- ==== Sys2Proof/Word.lean ====
section
/-! DEFINITION. The bit-vector types of the machine (spec/00_scope.md R8, R9, R11). -/

namespace Sys2Proof

/-- A byte of memory or of an instruction (R40). -/
abbrev Byte := BitVec 8

/-- A word: 16 bits (R9). -/
abbrev Word16 := BitVec 16

/-- A doubleword: 32 bits (R9). -/
abbrev DWord := BitVec 32

/-- A quadword: the width of an MMX register, a general register, an opmask register, an address (R11). -/
abbrev QWord := BitVec 64

/-- The storage of one vector register: the widest MAXVL is 512 (R7, R25). A value narrower than 512 bits
(an operand of 64, 128 or 256 bits, a register of a machine with a smaller MAXVL) is held zero-extended. -/
abbrev VWord := BitVec 512

end Sys2Proof
end

