-- ==== Sys2Proof/Machine/Arith.lean ====
section
/-! DEFINITION. The arithmetic of every form (spec/40_pmaddwd_legacy.md R100, R101; spec/42_vpmaddwd_evex.md R133).
A vector is handled doubleword by doubleword: doubleword j is one lane. -/

namespace Sys2Proof.Machine

/-- Doubleword `j` of a vector: `v[32j+31:32j]` (R9). -/
def lane (v : VWord) (j : Nat) : DWord := v.extractLsb' (32 * j) 32

/-- The vector whose doublewords 0 to n-1 are those of `f` and whose other bits are 0. -/
def pack : Nat → (Nat → DWord) → VWord
  | 0, _ => 0#512
  | n + 1, f => pack n f ||| ((f n).setWidth 512 <<< (32 * n))

/-- `sint_16` of the low word of a doubleword (R10, R100). -/
def lowWord (a : DWord) : Int := (a.extractLsb' 0 16).toInt

/-- `sint_16` of the high word of a doubleword (R10, R100). -/
def highWord (a : DWord) : Int := (a.extractLsb' 16 16).toInt

/-- The exact integer that a doubleword of the result is computed from: the sum of two exact products (R100). -/
def pairSum (a b : DWord) : Int := lowWord a * lowWord b + highWord a * highWord b

/-- `madd32` (R100): the sum, kept modulo 2^32. -/
def madd32 (a b : DWord) : DWord := BitVec.ofInt 32 (pairSum a b)

/-- `MADD(n, a, b)` zero-extended (R101). -/
def madd (n : Nat) (a b : VWord) : VWord := pack n fun j => madd32 (lane a j) (lane b j)

/-- `MADD(n, a, b)` in the low n doublewords and `old` above them (R112). -/
def maddKeep (n : Nat) (old a b : VWord) : VWord :=
  pack 16 fun j => if j < n then madd32 (lane a j) (lane b j) else lane old j

/-- `MADDK(n, old, a, b, mask, z)` zero-extended (R133, R135). -/
def maddk (n : Nat) (old a b : VWord) (mask : QWord) (z : Bool) : VWord :=
  pack n fun j =>
    if mask.getLsbD j then madd32 (lane a j) (lane b j)
    else if z then 0#32
    else lane old j

end Sys2Proof.Machine
end

