-- ==== Sys2Proof/Config.lean ====
section
/-! DEFINITION. What a launch fixes for the run (spec/00_scope.md R7, spec/10_state.md R20, R36): the spec leaves
each of these parameters OPEN, so they are plain data, carried in State, and a statement about every state is a
statement about every value of them. This file has data and names only; what they mean for a step stands in
Machine/. -/

namespace Sys2Proof

/-- The seven forms of the instruction (R2). -/
inductive Form where
  | mmx
  | sse
  | vex128
  | vex256
  | evex128
  | evex256
  | evex512
  deriving DecidableEq, Repr

/-- `MAXVL`: the width of a full vector register (R7, D4). -/
inductive MaxVl where
  | v128
  | v256
  | v512
  deriving DecidableEq, Repr

/-- `MAXVL` in bits. -/
def MaxVl.bits : MaxVl → Nat
  | .v128 => 128
  | .v256 => 256
  | .v512 => 512

/-- `Feat`: which CPUID feature flags are set (R7, D5). -/
structure Features where
  mmx : Bool
  sse2 : Bool
  avx : Bool
  avx2 : Bool
  avx512bw : Bool
  avx512vl : Bool
  avx10v1 : Bool
  deriving DecidableEq, Repr

/-- `OsEnabled`: for each form, whether the operating system has enabled its state (R7, R36). -/
structure OsEnabled where
  mmx : Bool
  sse : Bool
  vex128 : Bool
  vex256 : Bool
  evex128 : Bool
  evex256 : Bool
  evex512 : Bool
  deriving DecidableEq, Repr

/-- `OsEnabled(form)`. -/
def OsEnabled.on (o : OsEnabled) : Form → Bool
  | .mmx => o.mmx
  | .sse => o.sse
  | .vex128 => o.vex128
  | .vex256 => o.vex256
  | .evex128 => o.evex128
  | .evex256 => o.evex256
  | .evex512 => o.evex512

/-- The two kinds of access that `Admits` answers for (R41). -/
inductive AccessKind where
  | fetch
  | read
  deriving DecidableEq, Repr

/-- One grant of `Admits` (R41): an access of `kind` and exactly `size` bytes is admitted at each of the `count`
addresses from `first` upwards. A list of grants can give any predicate on kind, address and size: no grant says
anything about an access of another size. -/
structure Grant where
  kind : AccessKind
  size : Nat
  first : Nat
  count : Nat
  deriving DecidableEq, Repr

/-- The configuration of a run (R7, R20). -/
structure Config where
  /-- `MAXVL` (R7, D4) -/
  maxvl : MaxVl
  /-- `mode64`: 64-bit mode, or a 32-bit code segment (R7, D3) -/
  mode64 : Bool
  /-- `Feat` (R7, D5) -/
  feat : Features
  /-- `OsEnabled` (R7, R36) -/
  os : OsEnabled
  /-- `TsClear`: CR0.TS = 0 (R36, R145) -/
  tsClear : Bool
  /-- `x87_pending`: an unmasked x87 exception is pending (R7, R146) -/
  x87Pending : Bool
  /-- premise `P_ac`: alignment checking is off (R50, R173) -/
  acOff : Bool
  /-- 57-bit linear addresses (5-level paging) instead of 48-bit ones (R47) -/
  la57 : Bool
  /-- the predicate `Admits` (R41), as the list of what it grants -/
  grants : List Grant
  /-- `end_addr`: where a run ends (R7, R176) -/
  endAddr : QWord
  deriving DecidableEq, Repr

/-- The control-register bits behind `OsEnabled` and `TsClear` on hardware (R36). No instruction of the model
reads or writes these registers themselves (D5), so they are not state. -/
structure ControlRegs where
  cr0 : QWord
  cr4 : QWord
  xcr0 : QWord
  deriving DecidableEq, Repr

end Sys2Proof
end

