-- ==== Sys2Proof/Machine/State.lean ====
section
/-! DEFINITION. The state of the machine (spec/10_state.md R20, R37; spec/00_scope.md R7, R12), the reasons a step
stops for, and the state a run starts from. -/

namespace Sys2Proof.Machine

/-- The faults of R141 (spec/60_exceptions.md). A fault records the pc of the faulting instruction and, for the two
faults of a data access, its linear address and size. Every one of them is what the spec says the step does:
precise and terminal (R150). -/
inductive Fault where
  /-- an instruction byte at `addr` cannot be fetched (R142); raised by the fetch; safe -/
  | fetchFault (pc addr : QWord)
  /-- illegal encoding, form absent or not enabled (R143, R144; R65, R77, R81); raised by the decoder and by every
  meaning; safe -/
  | ud (pc : QWord)
  /-- `TsClear` is false (R145); raised by every meaning; safe -/
  | nm (pc : QWord)
  /-- a pending x87 exception meets form MMX (R146); raised by form MMX only; safe -/
  | mf (pc : QWord)
  /-- a memory operand of form SSE is not 16-byte aligned (R148); raised by form SSE only; safe -/
  | gpAlign (pc addr : QWord) (size : Nat)
  /-- the memory operand cannot be read (R147), or is misaligned without premise `P_ac` (R50); raised by every
  meaning with a memory operand; safe -/
  | memFault (pc addr : QWord) (size : Nat)
  deriving DecidableEq, Repr

/-- The refusals: the model gives the bytes at pc no meaning (R12). -/
inductive Refusal where
  /-- an instruction that has no meaning in this model yet; raised by Dispatch only; safe -/
  | notModelled (mnemonic : String)
  /-- the bytes are no form of PMADDWD (R92); raised by the decoder; safe -/
  | notPmaddwd
  /-- 66H or 67H twice, or two segment overrides (R65); raised by the decoder; safe -/
  | prefixRepeat
  /-- an FS or GS override (R45, R65); raised by the decoder; safe -/
  | fsGsOverride
  /-- F2H or F3H before a legacy form (R65); raised by the decoder; safe -/
  | repPrefix
  /-- 16-bit addressing (R74); raised by the decoder; safe -/
  | addr16
  /-- a VEX or EVEX bit that names a register above 7 outside 64-bit mode (R79, R82); raised by the decoder; safe -/
  | highRegIn32
  /-- EVEX bits P0[3] or P1[2] not at their fixed values (R81); raised by the decoder; safe -/
  | evexReserved
  /-- the instruction or its successor lies beyond the address range (R34); raised by the fetch and by every
  meaning; safe -/
  | pcRange
  deriving DecidableEq, Repr

/-- The fault / refusal mark of a state (R12, R20). -/
inductive Mark where
  | clear
  | faulted (f : Fault)
  | refused (r : Refusal)
  deriving DecidableEq, Repr

/-- Memory: (address, byte) pairs in canonical form (see Machine/Memory.lean); an address not listed reads as 00H
(DESIGN CHOICE, log entry 3). -/
abbrev Memory := List Host.Cell

/-- The state of the machine. -/
structure State where
  /-- the instruction pointer: the linear address of the instruction's first byte (R33) -/
  pc : QWord
  /-- the MMX registers MM0 to MM7 (R21) -/
  mm : Vector QWord 8
  /-- the vector registers; the low MAXVL bits of entry i are V[i] (R24, R25, R27) -/
  vec : Vector VWord 32
  /-- the opmask registers K0 to K7 (R30) -/
  k : Vector QWord 8
  /-- the general registers, numbered as R32 says -/
  g : Vector QWord 16
  /-- bits 79:64 of the x87 data registers; bits 63:0 of register i are mm[i] (R37) -/
  x87Hi : Vector Word16 8
  /-- the x87 tag word (R37) -/
  x87Tag : Word16
  /-- the x87 top-of-stack field (R37) -/
  x87Top : BitVec 3
  /-- launch memory (R41) -/
  mem : Memory
  /-- the fault / refusal mark (R12, R20) -/
  mark : Mark
  /-- what the launch fixes for the run (R7) -/
  cfg : Config
  deriving DecidableEq, Repr

/-- R36's table of `OsEnabled`, as a function of the control registers: CR0.EM is bit 2, CR4.OSFXSR bit 9,
CR4.OSXSAVE bit 18. -/
def osEnabledOf (c : ControlRegs) : OsEnabled :=
  let em := c.cr0.getLsbD 2
  let fxsr := c.cr4.getLsbD 9
  let xsave := c.cr4.getLsbD 18
  let avxState := decide (c.xcr0.extractLsb' 1 2 = 3#2)
  let avx512State := decide (c.xcr0.extractLsb' 5 3 = 7#3)
  let vex := xsave && avxState
  let evex := xsave && avxState && avx512State
  { mmx := !em, sse := !em && fxsr, vex128 := vex, vex256 := vex, evex128 := evex, evex256 := evex, evex512 := evex }

/-- `TsClear` as a function of the control registers: CR0.TS, bit 3, is 0 (R36). -/
def tsClearOf (c : ControlRegs) : Bool := !c.cr0.getLsbD 3

/-- Control registers as an operating system leaves them when every form is enabled (R173: CR0.EM and CR0.TS
clear, CR4.OSFXSR and CR4.OSXSAVE set, XCR0 written). DESIGN CHOICE, log entry 4. -/
def launchControl : ControlRegs :=
  { cr0 := 0x00000011#64, cr4 := 0x00040200#64, xcr0 := 0x00000000000000E7#64 }

/-- An access granted at every address of the 48-bit canonical space (R47): in each half, wherever it fits. -/
def everywhere (kind : AccessKind) (size : Nat) : List Grant :=
  [⟨kind, size, 0, 0x800000000001 - size⟩, ⟨kind, size, 0xFFFF800000000000, 0x800000000001 - size⟩]

/-- What `State.reset` admits: the fetch of a byte (R142), and reads of the operand sizes of R42, at every address of
the 48-bit canonical space. DESIGN CHOICE, unsafe, log entry 5. -/
def launchGrants : List Grant :=
  everywhere .fetch 1 ++ everywhere .read 8 ++ everywhere .read 16 ++ everywhere .read 32 ++ everywhere .read 64

/-- The configuration of `State.reset`: the premises of R173 hold and every form is present (DESIGN CHOICE, log
entries 4 and 5; spec/95_test_vectors.md's own default). -/
def launchConfig : Config :=
  { maxvl := .v512
    mode64 := true
    feat := ⟨true, true, true, true, true, true, true⟩
    os := osEnabledOf launchControl
    tsClear := tsClearOf launchControl
    x87Pending := false
    acOff := true
    la57 := false
    grants := launchGrants
    endAddr := 0#64 }

/-- The state right after reset. The spec defines none (R170): the register contents are the family's as far as R172
gives them (PRESUMED, log entry 1), zero for the general registers (DESIGN CHOICE, log entry 2), and nothing is
listed in memory. -/
def State.reset : State :=
  { pc := 0xFFFFFFF0#64
    mm := Vector.replicate 8 0#64
    vec := Vector.replicate 32 0#512
    k := Vector.replicate 8 0#64
    g := Vector.replicate 16 0#64
    x87Hi := Vector.replicate 8 0#16
    x87Tag := 0x5555#16
    x87Top := 0#3
    mem := []
    mark := .clear
    cfg := launchConfig }

end Sys2Proof.Machine
end

