-- ==== Sys2Proof/Machine/Forms.lean ====
section
/-! DEFINITION. What the spec's tables say of each form: vector length, mask length, operand size, CPUID condition
(spec/00_scope.md R2, spec/20_memory.md R42, spec/30_encoding.md R84), and the derived number of vector registers
(spec/10_state.md R27). -/

namespace Sys2Proof.Machine

/-- The vector length VL in bits (R2). -/
def formVl : Form → Nat
  | .mmx => 64
  | .sse | .vex128 | .evex128 => 128
  | .vex256 | .evex256 => 256
  | .evex512 => 512

/-- KL: the number of destination doublewords (R84). -/
def formKl (f : Form) : Nat := formVl f / 32

/-- The size in bytes of the memory operand (R42). -/
def formBytes (f : Form) : Nat := formVl f / 8

/-- The CPUID feature condition of a form (R2). -/
def featurePresent (x : Features) : Form → Bool
  | .mmx => x.mmx
  | .sse => x.sse2
  | .vex128 => x.avx
  | .vex256 => x.avx2
  | .evex128 | .evex256 => (x.avx512vl && x.avx512bw) || x.avx10v1
  | .evex512 => x.avx512bw || x.avx10v1

/-- R143: the CPUID condition holds and MAXVL is not smaller than the form's vector length. -/
def formSupported (c : Config) (f : Form) : Bool :=
  featurePresent c.feat f && decide (formVl f ≤ c.maxvl.bits)

/-- NVEC: how many vector registers can be named (R27). -/
def nvec (c : Config) : Nat :=
  if c.mode64 then
    if featurePresent c.feat .evex128 || featurePresent c.feat .evex512 then 32 else 16
  else 8

end Sys2Proof.Machine
end

