-- ==== Sys2Proof/Machine/Memory.lean ====
section
/-! DEFINITION. Memory: a list of (address, byte) pairs in one canonical form (spec/20_memory.md R40, R41, R43). -/

namespace Sys2Proof.Machine

/-- What an address that memory does not list reads as: 00H (DESIGN CHOICE, log entry 3; the spec leaves launch
memory open, R41). -/
def unlistedByte : Byte := 0#8

/-- The canonical form: addresses strictly rising and below 2^64, and no entry that says what an unlisted address
says. -/
abbrev Memory.wf (m : Memory) : Prop :=
  m.Pairwise (fun c d => c.1 < d.1) ∧ ∀ c ∈ m, c.1 < 2 ^ 64 ∧ c.2 ≠ unlistedByte

/-- `Mem[a]`: the byte at an address (R41). -/
def Memory.byteAt : Memory → Nat → Byte
  | [], _ => unlistedByte
  | c :: m, a => if c.1 = a then c.2 else Memory.byteAt m a

/-- Memory with the byte `b` at address `a`, in canonical form. No instruction writes memory (R42); this is how a
launch lays a program down. -/
def Memory.place : Memory → Nat → Byte → Memory
  | [], a, b => if b = unlistedByte then [] else [(a, b)]
  | c :: m, a, b =>
    if a < c.1 then (if b = unlistedByte then c :: m else (a, b) :: c :: m)
    else if a = c.1 then (if b = unlistedByte then m else (a, b) :: m)
    else c :: Memory.place m a b

/-- The same, leaving memory alone where there is no such address. -/
def Memory.put (m : Memory) (a : Nat) (b : Byte) : Memory :=
  if a < 2 ^ 64 then m.place a b else m

/-- Memory with the bytes laid down from address `a` upwards. -/
def Memory.putBytes : Memory → Nat → List Byte → Memory
  | m, _, [] => m
  | m, a, b :: bs => Memory.putBytes (m.put a b) (a + 1) bs

/-- `n` bytes from address `a` as a number: the byte at the lowest address is the least significant (R43). -/
def Memory.readLE (m : Memory) : Nat → Nat → Nat
  | _, 0 => 0
  | a, n + 1 => (m.byteAt a).toNat + 256 * Memory.readLE m (a + 1) n

end Sys2Proof.Machine
end

