-- ==== Sys2Proof/Machine/Ops.lean ====
section
/-! DEFINITION. The named operations over registers, the address space and the program counter, and how a step ends
in a fault or in the next state (spec/10_state.md, spec/20_memory.md, spec/60_exceptions.md). -/

namespace Sys2Proof.Machine

/-- What a step of this machine answers. -/
abbrev Result := Host.Outcome State Fault Refusal

/-! ### Registers -/

/-- `MM[i]` (R21), zero-extended. -/
def readMm (s : State) (i : Fin 8) : VWord := (s.mm.get i).setWidth 512

/-- `V[i]` (R25). -/
def readVec (s : State) (i : Fin 32) : VWord := s.vec.get i

/-- A vector register named by four bits (R69, R78). -/
def readVec16 (s : State) (i : Fin 16) : VWord := readVec s (i.castLE (by decide))

/-- `K[i]` (R30). -/
def readK (s : State) (i : Fin 8) : QWord := s.k.get i

/-- `G[i]` (R32). -/
def readG (s : State) (i : Fin 16) : QWord := s.g.get i

/-- `V[i] <- v` (R11, R25). -/
def writeVec (s : State) (i : Fin 32) (v : VWord) : State := { s with vec := s.vec.set i v }

/-- `V[i] <- v` for a register named by four bits. -/
def writeVec16 (s : State) (i : Fin 16) (v : VWord) : State := writeVec s (i.castLE (by decide)) v

/-- What an MMX instruction does to x87 state (R37): the whole tag word becomes 'valid', the top of stack 0.
PRESUMED, log entry 7: the spec gives these effects as general knowledge and not as rules. -/
def enterMmx (s : State) : State := { s with x87Tag := 0#16, x87Top := 0#3 }

/-- `MM[i] <- v` (R22), with the effects on x87 state of R37: bits 79:64 of that x87 register become all ones. -/
def writeMm (s : State) (i : Fin 8) (v : QWord) : State :=
  { enterMmx s with mm := s.mm.set i v, x87Hi := s.x87Hi.set i 0xFFFF#16 }

/-- `pc <- pc + len` (R33). -/
def advancePc (len : Nat) (s : State) : State := { s with pc := s.pc + BitVec.ofNat 64 len }

/-- The writemask (R134): all ones for `k = 0` ('no writemask'), otherwise `K[k]`. -/
def writemask (s : State) (k : Fin 8) : QWord := if k = 0 then BitVec.allOnes 64 else readK s k

/-! ### The address space -/

/-- The bit length of half the canonical space: 47, or 56 with 5-level paging (R47).
DESIGN CHOICE, safe, log entry 17. -/
def canonicalBits (c : Config) : Nat := if c.la57 then 56 else 47

/-- `[a, a+n)` lies inside the address range of the mode: below 2^32 outside 64-bit mode, within one half of the
canonical space in it (R34, R40, R47, R48). -/
def inSpace (c : Config) (a n : Nat) : Bool :=
  if c.mode64 then
    decide (a + n ≤ 2 ^ canonicalBits c) || decide (2 ^ 64 - 2 ^ canonicalBits c ≤ a ∧ a + n ≤ 2 ^ 64)
  else decide (a + n ≤ 2 ^ 32)

/-- The grant is one of `kind` accesses of `n` bytes at address `a`. -/
def grantCovers (kind : AccessKind) (a n : Nat) (g : Grant) : Bool :=
  decide (g.kind = kind) && decide (g.size = n) && decide (g.first ≤ a ∧ a < g.first + g.count)

/-- `Admits(kind, a, n)` (R41): the access is granted, and it is never outside the address range of the mode (R41, R47,
R48). DESIGN CHOICE, safe, log entry 10: the predicate is given as a list of grants, which can express every one. -/
def admits (c : Config) (kind : AccessKind) (a n : Nat) : Bool :=
  inSpace c a n && c.grants.any (grantCovers kind a n)

/-! ### Faults, and the end of an instruction -/

/-- Taking a fault (R150, R156): nothing is saved, no handler is entered, nothing returns. The state is unchanged;
Machine/Run.lean marks it (R12). -/
def raise (f : Fault) : Result := .fault f

/-- The faults of a form that depend on no operand, in the order of R149: absent (R143), not enabled (R144), `NM`
(R145), `MF` (R146). -/
def entryFault (f : Form) (s : State) : Option Fault :=
  if !formSupported s.cfg f then some (.ud s.pc)
  else if !s.cfg.os.on f then some (.ud s.pc)
  else if !s.cfg.tsClear then some (.nm s.pc)
  else if decide (f = .mmx) && s.cfg.x87Pending then some (.mf s.pc)
  else none

/-- The events of one instruction after decoding (R108): the successor must lie in the address range (R34), then the
faults of the form, then the operand of ModRM:r/m (`src`), then the one write and the advance of pc.
DEDUCED, safe, log entry 14: where the successor's test stands. -/
def complete (f : Form) (len : Nat) (src : Except Fault VWord) (write : VWord → State) (s : State) : Result :=
  if !inSpace s.cfg (s.pc.toNat + len) 1 then .refused .pcRange
  else
    match entryFault f s with
    | some e => raise e
    | none =>
      match src with
      | .error e => raise e
      | .ok v => .next (advancePc len (write v))

end Sys2Proof.Machine
end

