-- ==== Sys2Proof/Syntax.lean ====
section
/-! DEFINITION. The instruction as data (spec/30_encoding.md R85). One constructor per mnemonic of
spec/opcode_table.json; its rows 3/4 and 5/6 are two spellings of one instruction with the same meaning (R94) and
give the same term. Numbers of registers are bounded by their types; the other conditions on a term are in
WellFormed.lean. -/

namespace Sys2Proof

/-- The address size of a memory operand (R74). -/
inductive AddrSize where
  | a32
  | a64
  deriving DecidableEq, Repr

/-- A scaled index: general register `reg` times `2 ^ scale` (R71). -/
structure Index where
  reg : Fin 16
  scale : Fin 4
  deriving DecidableEq, Repr

/-- `MemExpr`: how a memory operand's effective address is formed (R85). -/
structure MemExpr where
  /-- the base register, if any -/
  base : Option (Fin 16)
  /-- the index register and its scale, if any -/
  index : Option Index
  /-- the displacement, already multiplied by N for an EVEX 8-bit one (R83) -/
  disp : Int
  /-- the base is the address of the next instruction (R73) -/
  rip : Bool
  /-- the address size (R74) -/
  asz : AddrSize
  deriving DecidableEq, Repr

/-- The operand of ModRM:r/m: one of `n` registers, or memory (R85). -/
inductive RM (n : Nat) where
  | reg (r : Fin n)
  | mem (m : MemExpr)
  deriving DecidableEq, Repr

/-- A decoded instruction (R85). `len` is the number of bytes it was decoded from (R85, R90). -/
inductive Instr where
  /-- `PMADDWD mm, mm/m64` -/
  | pmaddwdMmx (dst : Fin 8) (src : RM 8) (len : Nat)
  /-- `PMADDWD xmm1, xmm2/m128` -/
  | pmaddwdSse (dst : Fin 16) (src : RM 16) (len : Nat)
  /-- `VPMADDWD xmm1, xmm2, xmm3/m128` -/
  | vpmaddwdVex128 (dst src1 : Fin 16) (src2 : RM 16) (len : Nat)
  /-- `VPMADDWD ymm1, ymm2, ymm3/m256` -/
  | vpmaddwdVex256 (dst src1 : Fin 16) (src2 : RM 16) (len : Nat)
  /-- `VPMADDWD xmm1 {k1}{z}, xmm2, xmm3/m128`; `k = 0` is 'no writemask' -/
  | vpmaddwdEvex128 (dst src1 : Fin 32) (src2 : RM 32) (k : Fin 8) (z : Bool) (len : Nat)
  /-- `VPMADDWD ymm1 {k1}{z}, ymm2, ymm3/m256` -/
  | vpmaddwdEvex256 (dst src1 : Fin 32) (src2 : RM 32) (k : Fin 8) (z : Bool) (len : Nat)
  /-- `VPMADDWD zmm1 {k1}{z}, zmm2, zmm3/m512` -/
  | vpmaddwdEvex512 (dst src1 : Fin 32) (src2 : RM 32) (k : Fin 8) (z : Bool) (len : Nat)
  deriving DecidableEq, Repr

/-- The form an instruction is of (R2). -/
def Instr.form : Instr → Form
  | .pmaddwdMmx .. => .mmx
  | .pmaddwdSse .. => .sse
  | .vpmaddwdVex128 .. => .vex128
  | .vpmaddwdVex256 .. => .vex256
  | .vpmaddwdEvex128 .. => .evex128
  | .vpmaddwdEvex256 .. => .evex256
  | .vpmaddwdEvex512 .. => .evex512

/-- The number of bytes an instruction was decoded from (R85). -/
def Instr.len : Instr → Nat
  | .pmaddwdMmx _ _ len => len
  | .pmaddwdSse _ _ len => len
  | .vpmaddwdVex128 _ _ _ len => len
  | .vpmaddwdVex256 _ _ _ len => len
  | .vpmaddwdEvex128 _ _ _ _ _ len => len
  | .vpmaddwdEvex256 _ _ _ _ _ len => len
  | .vpmaddwdEvex512 _ _ _ _ _ len => len

/-- The same instruction decoded from `len` bytes. -/
def Instr.withLen (i : Instr) (len : Nat) : Instr :=
  match i with
  | .pmaddwdMmx d s _ => .pmaddwdMmx d s len
  | .pmaddwdSse d s _ => .pmaddwdSse d s len
  | .vpmaddwdVex128 d s1 s2 _ => .vpmaddwdVex128 d s1 s2 len
  | .vpmaddwdVex256 d s1 s2 _ => .vpmaddwdVex256 d s1 s2 len
  | .vpmaddwdEvex128 d s1 s2 k z _ => .vpmaddwdEvex128 d s1 s2 k z len
  | .vpmaddwdEvex256 d s1 s2 k z _ => .vpmaddwdEvex256 d s1 s2 k z len
  | .vpmaddwdEvex512 d s1 s2 k z _ => .vpmaddwdEvex512 d s1 s2 k z len

/-- The memory operand of an instruction, if ModRM:r/m names memory (R62). -/
def Instr.memOperand : Instr → Option MemExpr
  | .pmaddwdMmx _ (.mem m) _ => some m
  | .pmaddwdSse _ (.mem m) _ => some m
  | .vpmaddwdVex128 _ _ (.mem m) _ => some m
  | .vpmaddwdVex256 _ _ (.mem m) _ => some m
  | .vpmaddwdEvex128 _ _ (.mem m) _ _ _ => some m
  | .vpmaddwdEvex256 _ _ (.mem m) _ _ _ => some m
  | .vpmaddwdEvex512 _ _ (.mem m) _ _ _ => some m
  | .pmaddwdMmx _ (.reg _) _ => none
  | .pmaddwdSse _ (.reg _) _ => none
  | .vpmaddwdVex128 _ _ (.reg _) _ => none
  | .vpmaddwdVex256 _ _ (.reg _) _ => none
  | .vpmaddwdEvex128 _ _ (.reg _) _ _ _ => none
  | .vpmaddwdEvex256 _ _ (.reg _) _ _ _ => none
  | .vpmaddwdEvex512 _ _ (.reg _) _ _ _ => none

/-- The mnemonic the assembler writes (R95): `PMADDWD` for the legacy forms, `VPMADDWD` for the others. -/
def Form.mnemonic : Form → String
  | .mmx | .sse => "PMADDWD"
  | .vex128 | .vex256 | .evex128 | .evex256 | .evex512 => "VPMADDWD"

/-- The C intrinsics the source lists (R97): a name and the mnemonics it stands for. They have no semantics of
their own. -/
def intrinsics : List (String × List String) :=
  [("_mm512_madd_epi16", ["VPMADDWD"]),
   ("_mm512_mask_madd_epi16", ["VPMADDWD"]),
   ("_mm512_maskz_madd_epi16", ["VPMADDWD"]),
   ("_mm256_mask_madd_epi16", ["VPMADDWD"]),
   ("_mm256_maskz_madd_epi16", ["VPMADDWD"]),
   ("_mm_mask_madd_epi16", ["VPMADDWD"]),
   ("_mm_maskz_madd_epi16", ["VPMADDWD"]),
   ("_mm_madd_pi16", ["PMADDWD"]),
   ("_mm_madd_epi16", ["PMADDWD", "VPMADDWD"]),
   ("_mm256_madd_epi16", ["VPMADDWD"])]

end Sys2Proof
end

