-- ==== Sys2Proof/Machine/Operands.lean ====
section
/-! DEFINITION. The operand of ModRM:r/m: a register, or memory with its effective address, alignment and admission
(spec/30_encoding.md R70 to R74, spec/20_memory.md R42 to R50, spec/60_exceptions.md R147, R148). -/

namespace Sys2Proof.Machine

/-- The address size in bits (R74). -/
def aszBits : AddrSize → Nat
  | .a32 => 32
  | .a64 => 64

/-- `Gz[r]`: a general register cut to the address size (R72). -/
def gprZ (s : State) (asz : AddrSize) (r : Fin 16) : Nat := ((readG s r).setWidth (aszBits asz)).toNat

/-- The base: the address of the next instruction for a RIP-relative operand (R73), a register, or 0 (R72). -/
def baseValue (m : MemExpr) (len : Nat) (s : State) : Nat :=
  if m.rip then s.pc.toNat + len
  else
    match m.base with
    | some r => gprZ s m.asz r
    | none => 0

/-- The scaled index, or 0 (R71, R72). -/
def indexValue (m : MemExpr) (s : State) : Nat :=
  match m.index with
  | some x => gprZ s m.asz x.reg * 2 ^ x.scale.val
  | none => 0

/-- The effective address (R72, R73), which is the linear address (R45): the sum modulo 2^asz, zero-extended. -/
def effAddr (m : MemExpr) (len : Nat) (s : State) : QWord :=
  (BitVec.ofInt (aszBits m.asz) (baseValue m len s + indexValue m s + m.disp)).setWidth 64

/-- `MemRead(a, n)` (R43), zero-extended. -/
def memRead (s : State) (a : QWord) (n : Nat) : VWord := BitVec.ofNat 512 (s.mem.readLE a.toNat n)

/-- Reading the memory operand of a form (R42): form SSE must be aligned to 16 bytes (R49, R148); without premise
`P_ac` a misaligned operand of any form is a `MemFault` (R50); a read that is not admitted is one too (R147).
DEDUCED, safe, log entry 11: misaligned means not a multiple of the operand's size. -/
def loadOperand (f : Form) (a : QWord) (s : State) : Except Fault VWord :=
  if decide (f = .sse) && decide (a.toNat % 16 ≠ 0) then .error (.gpAlign s.pc a (formBytes f))
  else if !s.cfg.acOff && decide (a.toNat % formBytes f ≠ 0) then .error (.memFault s.pc a (formBytes f))
  else if !admits s.cfg .read a.toNat (formBytes f) then .error (.memFault s.pc a (formBytes f))
  else .ok (memRead s a (formBytes f))

/-- The value of the operand of ModRM:r/m (R62, R67); `readReg` reads the form's register file. -/
def operand {n : Nat} (f : Form) (len : Nat) (readReg : Fin n → VWord) (s : State) : RM n → Except Fault VWord
  | .reg r => .ok (readReg r)
  | .mem m => loadOperand f (effAddr m len s) s

end Sys2Proof.Machine
end

