-- ==== Sys2Proof/Machine/Evex.lean ====
section
/-! DEFINITION. The three EVEX forms (spec/42_vpmaddwd_evex.md R130 to R136). The memory operand is read in full
whatever the writemask (R136). -/

namespace Sys2Proof.Machine

/-- What the three EVEX forms share: `V[dst] <- zext_MAXVL(MADDK(KL, V[dst], V[src1], src2, mask, z))`. -/
def evexMadd (f : Form) (dst src1 : Fin 32) (src2 : RM 32) (k : Fin 8) (z : Bool) (len : Nat) (s : State) : Result :=
  complete f len (operand f len (readVec s) s src2)
    (fun v => writeVec s dst (maddk (formKl f) (readVec s dst) (readVec s src1) v (writemask s k) z)) s

/-- `VPMADDWD xmm1 {k1}{z}, xmm2, xmm3/m128` (R130). -/
def execVpmaddwdEvex128 (dst src1 : Fin 32) (src2 : RM 32) (k : Fin 8) (z : Bool) (len : Nat) (s : State) : Result :=
  evexMadd .evex128 dst src1 src2 k z len s

/-- `VPMADDWD ymm1 {k1}{z}, ymm2, ymm3/m256` (R131). -/
def execVpmaddwdEvex256 (dst src1 : Fin 32) (src2 : RM 32) (k : Fin 8) (z : Bool) (len : Nat) (s : State) : Result :=
  evexMadd .evex256 dst src1 src2 k z len s

/-- `VPMADDWD zmm1 {k1}{z}, zmm2, zmm3/m512` (R132). -/
def execVpmaddwdEvex512 (dst src1 : Fin 32) (src2 : RM 32) (k : Fin 8) (z : Bool) (len : Nat) (s : State) : Result :=
  evexMadd .evex512 dst src1 src2 k z len s

end Sys2Proof.Machine
end

