-- ==== Sys2Proof/Machine/Legacy.lean ====
section
/-! DEFINITION. The two forms without a VEX or EVEX prefix (spec/40_pmaddwd_legacy.md R110, R112). -/

namespace Sys2Proof.Machine

/-- `PMADDWD mm, mm/m64` (R110): `MM[dst] <- MADD(2, MM[dst], src)`. -/
def execPmaddwdMmx (dst : Fin 8) (src : RM 8) (len : Nat) (s : State) : Result :=
  complete .mmx len (operand .mmx len (readMm s) s src)
    (fun v => writeMm s dst ((madd 2 (readMm s dst) v).setWidth 64)) s

/-- `PMADDWD xmm1, xmm2/m128` (R112): `V[dst] <- V[dst][MAXVL-1:128] ++ MADD(4, V[dst][127:0], src)`. -/
def execPmaddwdSse (dst : Fin 16) (src : RM 16) (len : Nat) (s : State) : Result :=
  complete .sse len (operand .sse len (readVec16 s) s src)
    (fun v => writeVec16 s dst (maddKeep 4 (readVec16 s dst) (readVec16 s dst) v)) s

end Sys2Proof.Machine
end

