-- ==== Sys2Proof/Machine/Vex.lean ====
section
/-! DEFINITION. The two VEX forms (spec/41_vpmaddwd_vex.md R120, R121). -/

namespace Sys2Proof.Machine

/-- What the two VEX forms share: `V[dst] <- zext_MAXVL(MADD(KL, V[src1], src2))`. -/
def vexMadd (f : Form) (dst src1 : Fin 16) (src2 : RM 16) (len : Nat) (s : State) : Result :=
  complete f len (operand f len (readVec16 s) s src2)
    (fun v => writeVec16 s dst (madd (formKl f) (readVec16 s src1) v)) s

/-- `VPMADDWD xmm1, xmm2, xmm3/m128` (R120). -/
def execVpmaddwdVex128 (dst src1 : Fin 16) (src2 : RM 16) (len : Nat) (s : State) : Result :=
  vexMadd .vex128 dst src1 src2 len s

/-- `VPMADDWD ymm1, ymm2, ymm3/m256` (R121). -/
def execVpmaddwdVex256 (dst src1 : Fin 16) (src2 : RM 16) (len : Nat) (s : State) : Result :=
  vexMadd .vex256 dst src1 src2 len s

end Sys2Proof.Machine
end

