-- ==== Sys2Proof/Machine/Dispatch.lean ====
section
/-! DEFINITION. One arm per constructor of Instr: the instruction's meaning. -/

namespace Sys2Proof.Machine

def exec (i : Instr) (s : State) : Host.Outcome State Fault Refusal :=
  match i with
  | .pmaddwdMmx dst src len => Sys2Proof.Machine.execPmaddwdMmx dst src len s
  | .pmaddwdSse dst src len => Sys2Proof.Machine.execPmaddwdSse dst src len s
  | .vpmaddwdVex128 dst src1 src2 len => Sys2Proof.Machine.execVpmaddwdVex128 dst src1 src2 len s
  | .vpmaddwdVex256 dst src1 src2 len => Sys2Proof.Machine.execVpmaddwdVex256 dst src1 src2 len s
  | .vpmaddwdEvex128 dst src1 src2 k z len => Sys2Proof.Machine.execVpmaddwdEvex128 dst src1 src2 k z len s
  | .vpmaddwdEvex256 dst src1 src2 k z len => Sys2Proof.Machine.execVpmaddwdEvex256 dst src1 src2 k z len s
  | .vpmaddwdEvex512 dst src1 src2 k z len => Sys2Proof.Machine.execVpmaddwdEvex512 dst src1 src2 k z len s

end Sys2Proof.Machine
end

