-- ==== Sys2Proof/WellFormed.lean ====
section
/-! DEFINITION. Well-formedness of a term, over and above its types (spec/30_encoding.md R85). `mode64` is the
mode it is executed in and `nvec` the number of vector registers (spec/10_state.md R27). -/

namespace Sys2Proof

/-- A general register number exists: all sixteen in 64-bit mode, the first eight otherwise (R32). -/
def gprOk (mode64 : Bool) (r : Fin 16) : Bool := mode64 || decide (r.val < 8)

/-- The conditions on a memory expression (R71: register 4 is no index; R72: the displacement is a signed 32-bit
value; R73: `rip` excludes base and index and requires 64-bit mode; R74: 32-bit addresses outside 64-bit mode). -/
def MemExpr.wf (mode64 : Bool) (m : MemExpr) : Bool :=
  m.base.all (gprOk mode64) &&
  m.index.all (fun x => gprOk mode64 x.reg && decide (x.reg.val ≠ 4)) &&
  decide (-2147483648 ≤ m.disp ∧ m.disp < 2147483648) &&
  (!m.rip || (mode64 && m.base.isNone && m.index.isNone)) &&
  (mode64 || decide (m.asz = .a32))

/-- The conditions on an operand of ModRM:r/m: a register number below `nreg`, or a well-formed memory
expression. -/
def RM.wf {n : Nat} (mode64 : Bool) (nreg : Nat) : RM n → Bool
  | .reg r => decide (r.val < nreg)
  | .mem m => m.wf mode64

/-- The shortest encoding of a form (R90): no optional part but ModRM. -/
def Form.minLen : Form → Nat
  | .mmx => 3
  | .sse => 4
  | .vex128 | .vex256 => 4
  | .evex128 | .evex256 | .evex512 => 6

/-- The longest encoding of a form in the admitted subset (R65, R90). -/
def Form.maxLen : Form → Nat
  | .mmx => 11
  | .sse => 12
  | .vex128 | .vex256 => 12
  | .evex128 | .evex256 | .evex512 => 13

/-- A length that encodings of the form have (R90). -/
def lenOk (f : Form) (len : Nat) : Bool := decide (f.minLen ≤ len ∧ len ≤ f.maxLen)

/-- 'No writemask' goes with merging only (R81, R85). -/
def maskOk (k : Fin 8) (z : Bool) : Bool := decide (k.val ≠ 0) || !z

/-- Well-formedness of an instruction (R85). -/
def Instr.wf (mode64 : Bool) (nvec : Nat) (i : Instr) : Bool :=
  lenOk i.form i.len &&
  match i with
  | .pmaddwdMmx _ src _ => src.wf mode64 8
  | .pmaddwdSse dst src _ => decide (dst.val < nvec) && src.wf mode64 nvec
  | .vpmaddwdVex128 dst s1 s2 _ => decide (dst.val < nvec) && decide (s1.val < nvec) && s2.wf mode64 nvec
  | .vpmaddwdVex256 dst s1 s2 _ => decide (dst.val < nvec) && decide (s1.val < nvec) && s2.wf mode64 nvec
  | .vpmaddwdEvex128 dst s1 s2 k z _ =>
    decide (dst.val < nvec) && decide (s1.val < nvec) && s2.wf mode64 nvec && maskOk k z
  | .vpmaddwdEvex256 dst s1 s2 k z _ =>
    decide (dst.val < nvec) && decide (s1.val < nvec) && s2.wf mode64 nvec && maskOk k z
  | .vpmaddwdEvex512 dst s1 s2 k z _ =>
    decide (dst.val < nvec) && decide (s1.val < nvec) && s2.wf mode64 nvec && maskOk k z

end Sys2Proof
end

