-- ==== Sys2Proof/Decode.lean ====
section
/-! DEFINITION. From bytes to a term, and back (spec/30_encoding.md R64 to R92). `decode` is the procedure of R88:
total on every list of bytes, it answers an instruction, the fault UD, a refusal by name, or `short`: the bytes
given ran out where one more was needed. `encode` writes the bytes of a term from the same layouts; what the term
does not hold (a segment override, the W bit, the long VEX spelling, a wider displacement) it takes from a
`Spelling`. -/

namespace Sys2Proof

/-- What the decoder answers (R88). -/
inductive Decoded where
  /-- an admitted form -/
  | instr (i : Instr)
  /-- `raise UD`: an illegal encoding -/
  | ud
  /-- `refuse`: no meaning given -/
  | refused (r : Machine.Refusal)
  /-- one more byte is needed than was given -/
  | short
  deriving DecidableEq, Repr

/-! ### Fields and register numbers -/

/-- Bit `i` of a byte. -/
def bit (b : Byte) (i : Nat) : Bool := b.getLsbD i

/-- The field of `w` bits of a byte that starts at bit `lo`. -/
def field (b : Byte) (lo w : Nat) : BitVec w := b.extractLsb' lo w

/-- A 3-bit register number (R67, R69). -/
def num3 (lo : BitVec 3) : Fin 8 := ⟨lo.toNat, lo.isLt⟩

/-- A 3-bit number extended by one prefix bit, `hi:lo` (R66, R69, R78). -/
def num4 (hi : Bool) (lo : BitVec 3) : Fin 16 :=
  ⟨hi.toNat * 8 + lo.toNat, by have := lo.isLt; cases hi <;> simp <;> omega⟩

/-- A 3-bit number extended by two prefix bits, `h1:h0:lo` (R80). -/
def num5 (h1 h0 : Bool) (lo : BitVec 3) : Fin 32 :=
  ⟨h1.toNat * 16 + h0.toNat * 8 + lo.toNat, by have := lo.isLt; cases h1 <;> cases h0 <;> simp <;> omega⟩

/-- The `vvvv` register number of a VEX prefix (R78). -/
def numV (v : BitVec 4) : Fin 16 := ⟨v.toNat, v.isLt⟩

/-- The `V':vvvv` register number of an EVEX prefix (R80). -/
def numV5 (hi : Bool) (v : BitVec 4) : Fin 32 :=
  ⟨hi.toNat * 16 + v.toNat, by have := v.isLt; cases hi <;> simp <;> omega⟩

/-! ### Legacy prefix runs -/

/-- The legacy prefix bytes (R64). -/
def isLegacyPrefix (b : Byte) : Bool :=
  b == 0xF0#8 || b == 0xF2#8 || b == 0xF3#8 || b == 0x2E#8 || b == 0x36#8 || b == 0x3E#8 || b == 0x26#8 ||
  b == 0x64#8 || b == 0x65#8 || b == 0x66#8 || b == 0x67#8

/-- The six segment overrides (R64). -/
def isSegment (b : Byte) : Bool :=
  b == 0x2E#8 || b == 0x36#8 || b == 0x3E#8 || b == 0x26#8 || b == 0x64#8 || b == 0x65#8

/-- The legacy prefix run at the head of the bytes, and the rest. -/
def splitRun : List Byte → List Byte × List Byte
  | [] => ([], [])
  | b :: bs => if isLegacyPrefix b then ((b :: (splitRun bs).1), (splitRun bs).2) else ([], b :: bs)

/-- A REX prefix byte (R66). -/
def isRex (b : Byte) : Bool := field b 4 4 == 4#4

/-- 66H or 67H twice, or two segment overrides (R65). -/
def runRepeats (p : List Byte) : Bool :=
  decide (1 < p.countP (· == 0x66#8)) || decide (1 < p.countP (· == 0x67#8)) || decide (1 < p.countP isSegment)

/-- An FS or GS override is in the run (R45). -/
def runHasFsGs (p : List Byte) : Bool := p.contains 0x64#8 || p.contains 0x65#8

/-- What may not stand before a VEX or EVEX prefix: LOCK, 66H, F2H, F3H, or a REX prefix (R65, R66, R77, R81). -/
def illegalBeforeVex (p : List Byte) (rex : Option Byte) : Bool :=
  rex.isSome || p.contains 0xF0#8 || p.contains 0x66#8 || p.contains 0xF2#8 || p.contains 0xF3#8

/-- The address size (R74); 67H outside 64-bit mode has been refused before. -/
def addrSize (mode64 : Bool) (p : List Byte) : AddrSize :=
  if mode64 && !p.contains 0x67#8 then .a64 else .a32

/-! ### ModRM, SIB and displacement -/

/-- What ModRM parsing needs from what stands before it: the mode, the address size, the un-inverted extension bits
of index and base, and the factor N of an 8-bit displacement (R72, R83; 1 in the legacy and VEX forms). -/
structure AddrContext where
  mode64 : Bool
  asz : AddrSize
  x : Bool
  b : Bool
  n : Nat
  deriving DecidableEq, Repr

/-- How many displacement bytes follow (R70, R71). -/
inductive DispSize where
  | none
  | one
  | four
  deriving DecidableEq, Repr

/-- The displacement that `mod` announces; `noBase` is the case of a bare 32-bit displacement (R70, R71). -/
def dispSize (mod : BitVec 2) (noBase : Bool) : DispSize :=
  if mod = 0#2 then (if noBase then .four else .none)
  else if mod = 1#2 then .one
  else .four

/-- The displacement bytes, least significant first, sign-extended; one byte is multiplied by N (R72). -/
def parseDisp (n : Nat) : DispSize → List Byte → Option (Int × List Byte)
  | .none, bs => some (0, bs)
  | .one, b0 :: bs => some (b0.toInt * n, bs)
  | .four, b0 :: b1 :: b2 :: b3 :: bs => some ((b3 ++ b2 ++ b1 ++ b0).toInt, bs)
  | _, _ => none

/-- The memory operand after ModRM, with a SIB byte (R71) or without (R70, R73). -/
def parseMem (c : AddrContext) (mod : BitVec 2) (rm : BitVec 3) (bs : List Byte) : Option (MemExpr × List Byte) :=
  if rm = 4#3 then
    match bs with
    | [] => none
    | sib :: bs =>
      let noBase := decide (field sib 0 3 = 5#3) && decide (mod = 0#2)
      let index := num4 c.x (field sib 3 3)
      (parseDisp c.n (dispSize mod noBase) bs).map fun d =>
        ({ base := if noBase then none else some (num4 c.b (field sib 0 3))
           index := if index = 4 then none else some ⟨index, (field sib 6 2).toFin⟩
           disp := d.1
           rip := false
           asz := c.asz }, d.2)
  else
    let noBase := decide (rm = 5#3) && decide (mod = 0#2)
    (parseDisp c.n (dispSize mod noBase) bs).map fun d =>
      ({ base := if noBase then none else some (num4 c.b rm)
         index := none
         disp := d.1
         rip := noBase && c.mode64
         asz := c.asz }, d.2)

/-- The operand of ModRM:r/m before its register number is extended. -/
inductive RawRM where
  | reg (rm : BitVec 3)
  | mem (m : MemExpr)
  deriving DecidableEq, Repr

/-- The operand with its register number extended as the form says. -/
def RawRM.toRM {n : Nat} (ext : BitVec 3 → Fin n) : RawRM → RM n
  | .reg rm => .reg (ext rm)
  | .mem m => .mem m

/-- ModRM and what follows it (R67): the `reg` field, the operand of `r/m`, and the bytes left over. -/
def parseModRM (c : AddrContext) : List Byte → Option (BitVec 3 × RawRM × List Byte)
  | [] => none
  | m :: bs =>
    if field m 6 2 = 3#2 then some (field m 3 3, .reg (field m 0 3), bs)
    else (parseMem c (field m 6 2) (field m 0 3) bs).map fun e => (field m 3 3, .mem e.1, e.2)

/-! ### The three encodings -/

/-- The last part of every encoding: ModRM and what follows it (R67); `mk` builds the term from the `reg` field, the
operand and the length, which is what was given (`total`) less what is left over (R90). -/
def finish (c : AddrContext) (total : Nat) (mk : BitVec 3 → RawRM → Nat → Instr) (bs : List Byte) : Decoded :=
  match parseModRM c bs with
  | none => .short
  | some (reg, rm, rest) => .instr (mk reg rm (total - rest.length))

/-- Bit `i` of the REX prefix; 0 if there is none (R66). -/
def rexBit (rex : Option Byte) (i : Nat) : Bool := rex.any (fun b => bit b i)

/-- After the byte 0FH: the legacy forms (R68, R69). `total` is the number of bytes the decoder was given. -/
def decodeLegacy (mode64 : Bool) (total : Nat) (p : List Byte) (rex : Option Byte) : List Byte → Decoded
  | [] => .short
  | op :: bs =>
    if op ≠ 0xF5#8 then .refused .notPmaddwd
    else if p.contains 0xF0#8 then .ud
    else if p.contains 0xF2#8 || p.contains 0xF3#8 then .refused .repPrefix
    else
      finish ⟨mode64, addrSize mode64 p, rexBit rex 1, rexBit rex 0, 1⟩ total
        (fun reg rm len =>
          if p.contains 0x66#8 then .pmaddwdSse (num4 (rexBit rex 2) reg) (rm.toRM (num4 (rexBit rex 0))) len
          else .pmaddwdMmx (num3 reg) (rm.toRM num3) len) bs

/-- The fields of a VEX prefix, un-inverted (R75, R76). -/
structure VexFields where
  r : Bool
  x : Bool
  b : Bool
  map : BitVec 5
  vvvv : BitVec 4
  l : Bool
  pp : BitVec 2
  deriving DecidableEq, Repr

/-- The two-byte VEX prefix C5 b1 (R75). -/
def vexTwo (b1 : Byte) : VexFields :=
  { r := !bit b1 7, x := false, b := false, map := 1#5, vvvv := ~~~field b1 3 4, l := bit b1 2, pp := field b1 0 2 }

/-- The three-byte VEX prefix C4 b1 b2 (R76); W, bit 7 of b2, is ignored (R77). -/
def vexThree (b1 b2 : Byte) : VexFields :=
  { r := !bit b1 7, x := !bit b1 6, b := !bit b1 5, map := field b1 0 5, vvvv := ~~~field b2 3 4, l := bit b2 2,
    pp := field b2 0 2 }

/-- After a VEX prefix (R77 to R79). -/
def decodeVex (mode64 : Bool) (total : Nat) (p : List Byte) (rex : Option Byte) (v : VexFields) (bs : List Byte) :
    Decoded :=
  if v.map ≠ 1#5 ∨ v.pp ≠ 1#2 then .refused .notPmaddwd
  else
    match bs with
    | [] => .short
    | op :: bs =>
      if op ≠ 0xF5#8 then .refused .notPmaddwd
      else if illegalBeforeVex p rex then .ud
      else if !mode64 && (v.b || v.vvvv.getLsbD 3) then .refused .highRegIn32
      else
        finish ⟨mode64, addrSize mode64 p, v.x, v.b, 1⟩ total
          (fun reg rm len =>
            if v.l then .vpmaddwdVex256 (num4 v.r reg) (numV v.vvvv) (rm.toRM (num4 v.b)) len
            else .vpmaddwdVex128 (num4 v.r reg) (numV v.vvvv) (rm.toRM (num4 v.b)) len) bs

/-- The fields of an EVEX prefix, un-inverted (R80). -/
structure EvexFields where
  r : Bool
  x : Bool
  b : Bool
  rHigh : Bool
  reserved0 : Bool
  map : BitVec 3
  vvvv : BitVec 4
  reserved1 : Bool
  pp : BitVec 2
  z : Bool
  ll : BitVec 2
  bcast : Bool
  vHigh : Bool
  aaa : BitVec 3
  deriving DecidableEq, Repr

/-- The EVEX prefix 62 P0 P1 P2 (R80); W, bit 7 of P1, is ignored (R81). -/
def evexOf (p0 p1 p2 : Byte) : EvexFields :=
  { r := !bit p0 7, x := !bit p0 6, b := !bit p0 5, rHigh := !bit p0 4, reserved0 := bit p0 3, map := field p0 0 3,
    vvvv := ~~~field p1 3 4, reserved1 := bit p1 2, pp := field p1 0 2,
    z := bit p2 7, ll := field p2 5 2, bcast := bit p2 4, vHigh := !bit p2 3, aaa := field p2 0 3 }

/-- The factor N of an EVEX 8-bit displacement: the operand's size in bytes (R83). -/
def dispFactor (ll : BitVec 2) : Nat := if ll = 0#2 then 16 else if ll = 1#2 then 32 else 64

/-- After an EVEX prefix (R80 to R83). -/
def decodeEvex (mode64 : Bool) (total : Nat) (p : List Byte) (rex : Option Byte) (e : EvexFields) (bs : List Byte) :
    Decoded :=
  if e.reserved0 || !e.reserved1 then .refused .evexReserved
  else if e.map ≠ 1#3 ∨ e.pp ≠ 1#2 then .refused .notPmaddwd
  else
    match bs with
    | [] => .short
    | op :: bs =>
      if op ≠ 0xF5#8 then .refused .notPmaddwd
      else if illegalBeforeVex p rex then .ud
      else if e.ll = 3#2 ∨ e.bcast = true ∨ (e.z = true ∧ e.aaa = 0#3) then .ud
      else if !mode64 && (e.b || e.rHigh || e.vHigh || e.vvvv.getLsbD 3) then .refused .highRegIn32
      else
        finish ⟨mode64, addrSize mode64 p, e.x, e.b, dispFactor e.ll⟩ total
          (fun reg rm len =>
            let dst := num5 e.rHigh e.r reg
            let src1 := numV5 e.vHigh e.vvvv
            let src2 := rm.toRM (num5 e.x e.b)
            if e.ll = 0#2 then .vpmaddwdEvex128 dst src1 src2 (num3 e.aaa) e.z len
            else if e.ll = 1#2 then .vpmaddwdEvex256 dst src1 src2 (num3 e.aaa) e.z len
            else .vpmaddwdEvex512 dst src1 src2 (num3 e.aaa) e.z len) bs

/-- Outside 64-bit mode the byte after C4H, C5H or 62H belongs to a VEX or EVEX prefix only if its bits 7:6 are
11b; otherwise the bytes are LES, LDS or BOUND (R79, R82). -/
def vexByteOk (mode64 : Bool) (b : Byte) : Bool := mode64 || field b 6 2 == 3#2

/-- From the first byte after the legacy prefix run and REX: which encoding it is (R88). -/
def decodeOpcode (mode64 : Bool) (total : Nat) (p : List Byte) (rex : Option Byte) (b0 : Byte) (bs : List Byte) :
    Decoded :=
  if b0 = 0x0F#8 then decodeLegacy mode64 total p rex bs
  else if b0 = 0xC5#8 then
    match bs with
    | [] => .short
    | b1 :: bs =>
      if vexByteOk mode64 b1 then decodeVex mode64 total p rex (vexTwo b1) bs else .refused .notPmaddwd
  else if b0 = 0xC4#8 then
    match bs with
    | [] => .short
    | b1 :: bs =>
      if vexByteOk mode64 b1 then
        match bs with
        | [] => .short
        | b2 :: bs => decodeVex mode64 total p rex (vexThree b1 b2) bs
      else .refused .notPmaddwd
  else if b0 = 0x62#8 then
    match bs with
    | [] => .short
    | p0 :: bs =>
      if vexByteOk mode64 p0 then
        match bs with
        | [] => .short
        | [_] => .short
        | p1 :: p2 :: bs => decodeEvex mode64 total p rex (evexOf p0 p1 p2) bs
      else .refused .notPmaddwd
  else .refused .notPmaddwd

/-- The decoding procedure of R88 on the bytes that stand at pc. -/
def decode (mode64 : Bool) (bs : List Byte) : Decoded :=
  let p := (splitRun bs).1
  match (splitRun bs).2 with
  | [] => .short
  | b0 :: rest =>
    if runRepeats p then .refused .prefixRepeat
    else if runHasFsGs p then .refused .fsGsOverride
    else if p.contains 0x67#8 && !mode64 then .refused .addr16
    else if mode64 && isRex b0 then
      match rest with
      | [] => .short
      | b1 :: rest => decodeOpcode mode64 bs.length p (some b0) b1 rest
    else decodeOpcode mode64 bs.length p none b0 rest

/-! ### The host's table words -/

/-- The longest encoding of the admitted subset (R90). -/
def longestInstr : Nat := 13

/-- `n` bytes of a number, least significant byte first. -/
def bytesOf : Nat → Nat → List Byte
  | 0, _ => []
  | n + 1, w => BitVec.ofNat 8 w :: bytesOf n (w / 256)

/-- The bytes of an instruction whose first `nbits` bits are those of `w` (bit 0 is the least significant bit of
the first byte) and whose other bits, up to the longest instruction, are 0. -/
def tableBytes (nbits w : Nat) : List Byte := bytesOf longestInstr (w % 2 ^ nbits)

/-- What the decoder reads, in 64-bit mode, from an opcode-table word. -/
def decodeTableWord (nbits w : Nat) : Option Instr :=
  match decode true (tableBytes nbits w) with
  | .instr i => some i
  | _ => none

/-! ### The encoder -/

/-- A segment override without effect (R45). -/
inductive Segment where
  | cs
  | ss
  | ds
  | es
  deriving DecidableEq, Repr

/-- The override's byte (R64). -/
def segmentByte : Segment → Byte
  | .cs => 0x2E#8
  | .ss => 0x36#8
  | .ds => 0x3E#8
  | .es => 0x26#8

/-- The choices of an encoding that leave the term as it is: a segment override (R45), the ignored W bit (R66,
R77, R81), the C4 spelling where C5 would do (R94), a REX prefix that is not needed (R66), and a 32-bit displacement
where none or an 8-bit one would do (R72). -/
structure Spelling where
  seg : Option Segment
  w : Bool
  longVex : Bool
  rex : Bool
  disp32 : Bool
  deriving DecidableEq, Repr

/-- The plainest spelling. -/
def Spelling.plain : Spelling := ⟨none, false, false, false, false⟩

/-- A byte of bits, most significant first. -/
def byteOfBits (b7 b6 b5 b4 b3 b2 b1 b0 : Bool) : Byte :=
  BitVec.ofBool b7 ++ BitVec.ofBool b6 ++ BitVec.ofBool b5 ++ BitVec.ofBool b4 ++ BitVec.ofBool b3 ++
    BitVec.ofBool b2 ++ BitVec.ofBool b1 ++ BitVec.ofBool b0

/-- The low three bits of a register number. -/
def low3 (r : Nat) : BitVec 3 := BitVec.ofNat 3 r

/-- ModRM, or SIB: two bits and twice three (R67, R71). -/
def byte233 (a : BitVec 2) (b c : BitVec 3) : Byte := a ++ b ++ c

/-- A 32-bit displacement, least significant byte first (R72). -/
def dispBytes (d : Int) : List Byte :=
  let v := BitVec.ofInt 32 d
  [v.extractLsb' 0 8, v.extractLsb' 8 8, v.extractLsb' 16 8, v.extractLsb' 24 8]

/-- The `mod` field and displacement bytes of an operand with base register `base`: none, 8-bit (a multiple of N), or
32-bit (R70, R72, R83). -/
def encodeDisp (wide : Bool) (n : Nat) (base : Nat) (d : Int) : BitVec 2 × List Byte :=
  if !wide && decide (d = 0) && decide (base % 8 ≠ 5) then (0#2, [])
  else if !wide && decide (d % n = 0) && decide (-128 ≤ d / n ∧ d / n < 128) then (1#2, [BitVec.ofInt 8 (d / n)])
  else (2#2, dispBytes d)

/-- ModRM, SIB and displacement of a memory operand (R70, R71, R73). -/
def encodeMem (mode64 wide : Bool) (n : Nat) (reg : BitVec 3) (m : MemExpr) : List Byte :=
  match m.base, m.index with
  | none, none =>
    if m.rip || !mode64 then byte233 0#2 reg 5#3 :: dispBytes m.disp
    else byte233 0#2 reg 4#3 :: byte233 0#2 4#3 5#3 :: dispBytes m.disp
  | none, some x => byte233 0#2 reg 4#3 :: byte233 (BitVec.ofNat 2 x.scale) (low3 x.reg) 5#3 :: dispBytes m.disp
  | some b, none =>
    let e := encodeDisp wide n b m.disp
    if b.val % 8 = 4 then byte233 e.1 reg 4#3 :: byte233 0#2 4#3 (low3 b) :: e.2
    else byte233 e.1 reg (low3 b) :: e.2
  | some b, some x =>
    let e := encodeDisp wide n b m.disp
    byte233 e.1 reg 4#3 :: byte233 (BitVec.ofNat 2 x.scale) (low3 x.reg) (low3 b) :: e.2

/-- ModRM and what follows it. -/
def encodeRM {k : Nat} (mode64 wide : Bool) (n : Nat) (reg : BitVec 3) : RM k → List Byte
  | .reg r => [byte233 3#2 reg (low3 r)]
  | .mem m => encodeMem mode64 wide n reg m

/-- The bit that extends SIB.index, or an EVEX register number to five bits (R66, R71, R80). -/
def extX {k : Nat} : RM k → Bool
  | .reg r => decide (16 ≤ r.val)
  | .mem m => m.index.any fun x => decide (8 ≤ x.reg.val)

/-- The bit that extends ModRM:r/m or SIB.base (R66, R71, R80). -/
def extB {k : Nat} : RM k → Bool
  | .reg r => decide (r.val % 16 ≥ 8)
  | .mem m => m.base.any fun b => decide (8 ≤ b.val)

/-- The address-size prefix: only for 32-bit addresses in 64-bit mode (R74). -/
def sizePrefix {k : Nat} (mode64 : Bool) : RM k → List Byte
  | .reg _ => []
  | .mem m => if mode64 && decide (m.asz = .a32) then [0x67#8] else []

/-- The segment override of the spelling. -/
def segPrefix (sp : Spelling) : List Byte := (sp.seg.map segmentByte).toList

/-- A REX prefix where one is needed or wanted (R66). -/
def rexBytes (mode64 : Bool) (sp : Spelling) (r x b : Bool) : List Byte :=
  if mode64 && (sp.rex || sp.w || r || x || b) then [byteOfBits false true false false sp.w r x b] else []

/-- A VEX prefix with pp = 01b and map 0F: C5 where it will do, C4 otherwise (R75 to R77). -/
def vexBytes (sp : Spelling) (r x b l : Bool) (v : BitVec 4) : List Byte :=
  if sp.longVex || sp.w || x || b then
    [0xC4#8, byteOfBits (!r) (!x) (!b) false false false false true,
     BitVec.ofBool sp.w ++ (~~~v) ++ BitVec.ofBool l ++ 1#2]
  else [0xC5#8, BitVec.ofBool (!r) ++ (~~~v) ++ BitVec.ofBool l ++ 1#2]

/-- An EVEX prefix with pp = 01b and map 0F (R80, R81). -/
def evexBytes (sp : Spelling) (dst src1 : Nat) (x b : Bool) (ll : BitVec 2) (k : Fin 8) (z : Bool) : List Byte :=
  [0x62#8, byteOfBits (!decide (dst % 16 ≥ 8)) (!x) (!b) (!decide (16 ≤ dst)) false false false true,
   BitVec.ofBool sp.w ++ (~~~BitVec.ofNat 4 src1) ++ 1#1 ++ 1#2,
   BitVec.ofBool z ++ ll ++ 0#1 ++ BitVec.ofBool (!decide (16 ≤ src1)) ++ BitVec.ofNat 3 k]

/-- A VEX form (R75 to R79). -/
def encodeVex (mode64 : Bool) (sp : Spelling) (l : Bool) (dst src1 : Fin 16) (src2 : RM 16) : List Byte :=
  segPrefix sp ++ sizePrefix mode64 src2 ++ vexBytes sp (decide (8 ≤ dst.val)) (extX src2) (extB src2) l (BitVec.ofNat 4 src1) ++
    0xF5#8 :: encodeRM mode64 sp.disp32 1 (low3 dst) src2

/-- An EVEX form (R80 to R83). -/
def encodeEvex (mode64 : Bool) (sp : Spelling) (ll : BitVec 2) (n : Nat) (dst src1 : Fin 32) (src2 : RM 32)
    (k : Fin 8) (z : Bool) : List Byte :=
  segPrefix sp ++ sizePrefix mode64 src2 ++ evexBytes sp dst src1 (extX src2) (extB src2) ll k z ++
    0xF5#8 :: encodeRM mode64 sp.disp32 n (low3 dst) src2

/-- The bytes of an instruction in a spelling. The result's length is the `len` its decoding has. -/
def encode (mode64 : Bool) (sp : Spelling) : Instr → List Byte
  | .pmaddwdMmx dst src _ =>
    segPrefix sp ++ sizePrefix mode64 src ++ rexBytes mode64 sp false (extX src) (extB src) ++
      0x0F#8 :: 0xF5#8 :: encodeRM mode64 sp.disp32 1 (low3 dst) src
  | .pmaddwdSse dst src _ =>
    segPrefix sp ++ sizePrefix mode64 src ++ 0x66#8 :: rexBytes mode64 sp (decide (8 ≤ dst.val)) (extX src) (extB src) ++
      0x0F#8 :: 0xF5#8 :: encodeRM mode64 sp.disp32 1 (low3 dst) src
  | .vpmaddwdVex128 dst s1 s2 _ => encodeVex mode64 sp false dst s1 s2
  | .vpmaddwdVex256 dst s1 s2 _ => encodeVex mode64 sp true dst s1 s2
  | .vpmaddwdEvex128 dst s1 s2 k z _ => encodeEvex mode64 sp 0#2 16 dst s1 s2 k z
  | .vpmaddwdEvex256 dst s1 s2 k z _ => encodeEvex mode64 sp 1#2 32 dst s1 s2 k z
  | .vpmaddwdEvex512 dst s1 s2 k z _ => encodeEvex mode64 sp 2#2 64 dst s1 s2 k z

end Sys2Proof
end

