-- ==== Sys2Proof/Machine/Fetch.lean ====
section
/-! DEFINITION. Fetching and decoding the instruction at pc (spec/60_exceptions.md R142, spec/30_encoding.md R88,
spec/10_state.md R34). -/

namespace Sys2Proof.Machine

/-- An instruction byte can be fetched from address `a` (R41, R142). -/
def canFetch (c : Config) (a : Nat) : Bool := admits c .fetch a 1

/-- The bytes that can be fetched from address `a` upwards, at most `n` of them, up to the first that cannot. -/
def fetchBytes (s : State) : Nat → Nat → List Byte
  | 0, _ => []
  | n + 1, a => if canFetch s.cfg a then s.mem.byteAt a :: fetchBytes s n (a + 1) else []

/-- How many bytes may be looked at. A legacy prefix byte is never 00H, so a prefix run holds listed addresses only
and is no longer than memory's list; what follows it is at most 11 bytes long. The decoder therefore never runs out
of bytes that could be fetched.
DEDUCED, safe, log entry 12. -/
def fetchWindow (s : State) : Nat := s.mem.length + 16

/-- The bytes the decoder is given. -/
def bytesAtPc (s : State) : List Byte := fetchBytes s (fetchWindow s) s.pc.toNat

/-- What stands at pc: an instruction, or the reason why there is none. -/
inductive Fetched where
  | instr (i : Instr)
  | fault (f : Fault)
  | refused (r : Refusal)
  deriving DecidableEq, Repr

/-- Fetch and decode (R88, R142). Where the decoder needs a byte that cannot be fetched: `PcRange` if it lies beyond
the address range of the mode (R34), `FetchFault` otherwise.
DEDUCED, safe, log entry 14. -/
def fetchDecode (s : State) : Fetched :=
  match decode s.cfg.mode64 (bytesAtPc s) with
  | .instr i => .instr i
  | .ud => .fault (.ud s.pc)
  | .refused r => .refused r
  | .short =>
    let a := s.pc.toNat + (bytesAtPc s).length
    if inSpace s.cfg a 1 then .fault (.fetchFault s.pc (BitVec.ofNat 64 a)) else .refused .pcRange

/-- The program image the host places: the bytes of a table word at pc. -/
def placeAtPc (s : State) (nbits w : Nat) : State :=
  { s with mem := s.mem.putBytes s.pc.toNat (tableBytes nbits w) }

end Sys2Proof.Machine
end

