-- ==== Sys2Proof/Machine/Step.lean ====
section
/-! DEFINITION. One step (spec/00_scope.md R12, spec/40_pmaddwd_legacy.md R108). -/

namespace Sys2Proof.Machine

/-- One step: a marked state never steps again (R12, R150); otherwise the instruction at pc is fetched, decoded and
executed.
DEDUCED, safe, log entry 13: the mark after a fault or refusal is left to the run. DESIGN CHOICE, unsafe, log entry 6: no
interrupt arrives between steps. -/
def step (s : State) : Host.Outcome State Fault Refusal :=
  match s.mark with
  | .faulted f => .fault f
  | .refused r => .refused r
  | .clear =>
    match fetchDecode s with
    | .instr i => exec i s
    | .fault f => raise f
    | .refused r => .refused r

/-- The state with an opcode-table word (the bits above `nbits` zero) stored at pc, where the next step fetches.
DEDUCED, safe, log entry 15: a program is loaded from outside the machine. -/
def State.withFetchWord (s : State) (nbits w : Nat) : State := placeAtPc s nbits w

end Sys2Proof.Machine
end

