-- ==== Sys2Proof/Machine/Exceptions.lean ====
section
/-! DEFINITION. The hardware exceptions that each fault of the model stands for (spec/60_exceptions.md R141's
right-hand columns, general knowledge). No step depends on this file. -/

namespace Sys2Proof.Machine

/-- The error code a hardware exception delivers (R141). -/
inductive ErrorCode where
  | none
  | zero
  | faultCode
  deriving DecidableEq, Repr

/-- A hardware exception: its vector number and error code (R141). -/
structure HwException where
  vector : Nat
  code : ErrorCode
  deriving DecidableEq, Repr

/-- The hardware exceptions a fault stands for: #PF is vector 14, #GP 13, #SS 12, #UD 6, #NM 7, #MF 16 (R141). -/
def hardwareExceptions : Fault → List HwException
  | .fetchFault _ _ => [⟨14, .faultCode⟩, ⟨13, .zero⟩, ⟨12, .zero⟩]
  | .ud _ => [⟨6, .none⟩]
  | .nm _ => [⟨7, .none⟩]
  | .mf _ => [⟨16, .none⟩]
  | .gpAlign _ _ _ => [⟨13, .zero⟩]
  | .memFault _ _ _ => [⟨14, .faultCode⟩, ⟨13, .zero⟩, ⟨12, .zero⟩]

/-- The pc of the faulting instruction, which every fault records (R141). -/
def faultPc : Fault → QWord
  | .fetchFault pc _ => pc
  | .ud pc => pc
  | .nm pc => pc
  | .mf pc => pc
  | .gpAlign pc _ _ => pc
  | .memFault pc _ _ => pc

end Sys2Proof.Machine
end

