-- ==== Sys2Proof/Machine/Run.lean ====
section
/-! DEFINITION. A run: steps from a launch state until pc reaches `end_addr`, or a fault, or a refusal
(spec/70_reset_and_hazards.md R176; spec/00_scope.md R12; spec/60_exceptions.md R150). -/

namespace Sys2Proof.Machine

/-- The state is marked faulted or refused (R12). -/
def isMarked (s : State) : Bool := decide (s.mark ≠ .clear)

/-- A final state: unmarked, and pc is `end_addr` (R176).
DESIGN CHOICE, safe, log entry 16: a single step does not look at `end_addr`. -/
def isFinal (s : State) : Bool := decide (s.mark = .clear) && decide (s.pc = s.cfg.endAddr)

/-- The run has ended, normally or not. -/
def isSettled (s : State) : Bool := isMarked s || isFinal s

/-- The state marked with what stopped it; nothing else of it changes (R12, R150). -/
def markWith (s : State) (m : Mark) : State := { s with mark := m }

/-- One step of a run: an ended run stays, and no byte is fetched at `end_addr`; a fault or a refusal marks the
state (R12, R150, R176). -/
def runStep (s : State) : State :=
  if isSettled s then s
  else
    match step s with
    | .next t => t
    | .fault f => markWith s (.faulted f)
    | .refused r => markWith s (.refused r)

/-- `n` steps of a run. -/
def run : Nat → State → State
  | 0, s => s
  | n + 1, s => run n (runStep s)

end Sys2Proof.Machine
end

