-- ==== Sys2Proof/Safety.lean ====
section
/-! DEFINITION. What claims say of a run: the invariant of the machine, the launch premises
(spec/70_reset_and_hazards.md R173), and when an instruction is ready to execute. -/

namespace Sys2Proof.Machine

/-- Bits 511:MAXVL of every vector register are 0: there are no such bits (R7, R25). -/
abbrev upperBitsClear (s : State) : Prop := ∀ i : Fin 32, (readVec s i).toNat < 2 ^ s.cfg.maxvl.bits

/-- The invariant: memory in canonical form, no bits above MAXVL, pc inside the address range (R33, R34), no mark. -/
abbrev Inv (s : State) : Prop :=
  s.mem.wf ∧ upperBitsClear s ∧ inSpace s.cfg s.pc.toNat 1 = true ∧ s.mark = .clear

/-- Premises `P_feat`, `P_os`, `P_ts` and `P_x87` for one form (R173). -/
def formReady (f : Form) (s : State) : Bool :=
  formSupported s.cfg f && s.cfg.os.on f && s.cfg.tsClear && !(decide (f = .mmx) && s.cfg.x87Pending)

/-- Premise `P_data` for one memory operand at linear address `a` (R173), with premise `P_ac` (R50). -/
def operandReady (f : Form) (a : QWord) (s : State) : Bool :=
  !(decide (f = .sse) && decide (a.toNat % 16 ≠ 0)) &&
  (s.cfg.acOff || decide (a.toNat % formBytes f = 0)) &&
  admits s.cfg .read a.toNat (formBytes f)

/-- All that an instruction's completion asks of the state: the premises of R173, and its successor inside the
address range (R34). -/
def ready (i : Instr) (s : State) : Bool :=
  inSpace s.cfg (s.pc.toNat + i.len) 1 && formReady i.form s &&
  i.memOperand.all (fun m => operandReady i.form (effAddr m i.len s) s)

/-- Word `n` of a vector, as a signed integer (R9, R10). -/
def wordOf (v : VWord) (n : Nat) : Int := (v.extractLsb' (16 * n) 16).toInt

/-- Doubleword `j` of a vector (R9). -/
def dwordOf (v : VWord) (j : Nat) : DWord := v.extractLsb' (32 * j) 32

/-- What the source's Operation section assigns to doubleword `j`: the products of the two words of doubleword `j` of
each operand, summed and kept modulo 2^32 (R9, R10, R100, R101). -/
def maddDword (a b : VWord) (j : Nat) : DWord :=
  BitVec.ofInt 32 (wordOf a (2 * j) * wordOf b (2 * j) + wordOf a (2 * j + 1) * wordOf b (2 * j + 1))

/-- The value of the operand of ModRM:r/m where it can be read: a register, or the form's bytes at its effective
address (R42, R45, R62). -/
def rmValue {n : Nat} (f : Form) (len : Nat) (readReg : Fin n → VWord) (s : State) : RM n → VWord
  | .reg r => readReg r
  | .mem m => memRead s (effAddr m len s) (formBytes f)

/-- The number of the vector register that an instruction writes; form MMX writes none (R22, R26). -/
def dstVec : Instr → Option Nat
  | .pmaddwdMmx .. => none
  | .pmaddwdSse dst _ _ => some dst.val
  | .vpmaddwdVex128 dst _ _ _ => some dst.val
  | .vpmaddwdVex256 dst _ _ _ => some dst.val
  | .vpmaddwdEvex128 dst _ _ _ _ _ => some dst.val
  | .vpmaddwdEvex256 dst _ _ _ _ _ => some dst.val
  | .vpmaddwdEvex512 dst _ _ _ _ _ => some dst.val

/-- The writemask register that an instruction names; 0 is 'no writemask' (R81, R134). -/
def maskReg : Instr → Fin 8
  | .pmaddwdMmx .. => 0
  | .pmaddwdSse .. => 0
  | .vpmaddwdVex128 .. => 0
  | .vpmaddwdVex256 .. => 0
  | .vpmaddwdEvex128 _ _ _ k _ _ => k
  | .vpmaddwdEvex256 _ _ _ k _ _ => k
  | .vpmaddwdEvex512 _ _ _ k _ _ => k

/-- The bytes `bs` stand at pc and can be fetched (premise `P_code`, R173). -/
abbrev codeAt (s : State) (bs : List Byte) : Prop :=
  ∀ j (h : j < bs.length), canFetch s.cfg (s.pc.toNat + j) = true ∧ s.mem.byteAt (s.pc.toNat + j) = bs[j]

/-! ### Bytes before an opcode -/

/-- Each of 66H and 67H at most once, and at most one segment override (R65). -/
abbrev runOnce (p : List Byte) : Prop :=
  p.count 0x66#8 ≤ 1 ∧ p.count 0x67#8 ≤ 1 ∧ p.countP isSegment ≤ 1

/-- What may stand before an opcode without being refused on its own (R45, R65, R66, R74): a run of legacy prefix bytes,
none repeated, without FS and GS, with 67H in 64-bit mode only; then, in 64-bit mode, a REX prefix or none. LOCK, F2H and
F3H are left in. -/
abbrev headOk (mode64 : Bool) (p : List Byte) (rex : Option Byte) : Prop :=
  (∀ b ∈ p, isLegacyPrefix b = true) ∧ runOnce p ∧ 0x64#8 ∉ p ∧ 0x65#8 ∉ p ∧ (0x67#8 ∈ p → mode64 = true) ∧
  rex.all (fun b => mode64 && decide (b.extractLsb' 4 4 = 4#4)) = true

/-- The byte after C4H, C5H or 62H belongs to a VEX or EVEX prefix (R79, R82). -/
abbrev startsVex (mode64 : Bool) (b : Byte) : Prop := mode64 = true ∨ b.extractLsb' 6 2 = 3#2

/-- The first two payload bytes of an EVEX prefix that selects VPMADDWD: the fixed bits, map 0F and pp = 01b (R80, R81). -/
abbrev evexSelects (p0 p1 : Byte) : Prop :=
  p0.getLsbD 3 = false ∧ p1.getLsbD 2 = true ∧ p0.extractLsb' 0 3 = 1#3 ∧ p1.extractLsb' 0 2 = 1#2

end Sys2Proof.Machine
end

