-- ==== Sys2Proof/Certificates/Slice0/Obligations.lean ====
section
/-! DEFINITION. The statements about the model, one definition each; OBLIGATIONS.json lists them. -/

open Sys2Proof Sys2Proof.Machine

/-! ### Arithmetic -/

/-- R103: `madd32` is exact but for one input, all four words 8000H, where the sum wraps to 80000000H; the exact
sum of any other input lies in [-2^31 + 2^16, 2^31 - 2^15]. -/
def Obligations.MaddWrapsOnlyWhenAllWordsAre8000 : Prop :=
  madd32 0x80008000#32 0x80008000#32 = 0x80000000#32 ∧
  ∀ a b : DWord, ¬ (a = 0x80008000#32 ∧ b = 0x80008000#32) →
    -2147483648 + 65536 ≤ pairSum a b ∧ pairSum a b ≤ 2147483648 - 32768 ∧ (madd32 a b).toInt = pairSum a b

/-- R104: each product lies in [-2^30 + 2^15, 2^30] and reaches 2^30 only at 8000H times 8000H; the exact sum of two
products lies in [-2^31 + 2^16, 2^31], and is 2^31 only where all four words are 8000H. -/
def Obligations.ProductsFitSignedDoublewords : Prop :=
  ∀ a b : DWord,
    (-1073741824 + 32768 ≤ lowWord a * lowWord b ∧ lowWord a * lowWord b ≤ 1073741824) ∧
    (-1073741824 + 32768 ≤ highWord a * highWord b ∧ highWord a * highWord b ≤ 1073741824) ∧
    (lowWord a * lowWord b = 1073741824 ↔ lowWord a = -32768 ∧ lowWord b = -32768) ∧
    (highWord a * highWord b = 1073741824 ↔ highWord a = -32768 ∧ highWord b = -32768) ∧
    (-2147483648 + 65536 ≤ pairSum a b ∧ pairSum a b ≤ 2147483648) ∧
    (pairSum a b = 2147483648 ↔ a = 0x80008000#32 ∧ b = 0x80008000#32)

/-- R106: the operands commute. -/
def Obligations.MaddOperandsCommute : Prop :=
  (∀ a b : DWord, madd32 a b = madd32 b a) ∧ ∀ (n : Nat) (a b : VWord), madd n a b = madd n b a

/-- R101: doubleword j of `MADD(n, a, b)` is `madd32` of doubleword j of each input, and there are n of them. -/
def Obligations.MaddActsOnEachDoubleword : Prop :=
  ∀ (n : Nat) (a b : VWord), n ≤ 16 →
    (∀ j, j < n → dwordOf (madd n a b) j = madd32 (dwordOf a j) (dwordOf b j)) ∧
    (∀ i, 32 * n ≤ i → (madd n a b).getLsbD i = false)

/-- R133: a doubleword of `MADDK` is `madd32`, the old doubleword (merging) or zero (zeroing), as its mask bit and the
masking mode say, and there are n of them. -/
def Obligations.MaskedMaddActsOnEachDoubleword : Prop :=
  ∀ (n : Nat) (old a b : VWord) (m : QWord) (z : Bool), n ≤ 16 →
    (∀ j, j < n →
      (m.getLsbD j = true → dwordOf (maddk n old a b m z) j = madd32 (dwordOf a j) (dwordOf b j)) ∧
      (m.getLsbD j = false → z = false → dwordOf (maddk n old a b m z) j = dwordOf old j) ∧
      (m.getLsbD j = false → z = true → dwordOf (maddk n old a b m z) j = 0#32)) ∧
    (∀ i, 32 * n ≤ i → (maddk n old a b m z).getLsbD i = false)

/-! ### What each form computes, and that it completes -/

/-- R110: where its premises hold (R173), `PMADDWD mm, mm/m64` completes; both doublewords of MM[dst] are those of
the source's Operation section, and pc advances by the length. -/
def Obligations.MmxFormCompletesWithTwoDoublewords : Prop :=
  ∀ (dst : Fin 8) (src : RM 8) (len : Nat) (s : State), ready (.pmaddwdMmx dst src len) s = true →
    ∃ t, exec (.pmaddwdMmx dst src len) s = .next t ∧
      (∀ j, j < 2 → dwordOf (readMm t dst) j = maddDword (readMm s dst) (rmValue .mmx len (readMm s) s src) j) ∧
      t.pc = s.pc + BitVec.ofNat 64 len

/-- R112: where its premises hold, `PMADDWD xmm1, xmm2/m128` completes; the four low doublewords of V[dst] are
computed from its old value and the operand, and every bit from 128 upwards keeps its value. -/
def Obligations.SseFormCompletesAndKeepsUpperBits : Prop :=
  ∀ (dst : Fin 16) (src : RM 16) (len : Nat) (s : State), ready (.pmaddwdSse dst src len) s = true →
    ∃ t, exec (.pmaddwdSse dst src len) s = .next t ∧
      (∀ j, j < 4 →
        dwordOf (readVec16 t dst) j = maddDword (readVec16 s dst) (rmValue .sse len (readVec16 s) s src) j) ∧
      (∀ i, 128 ≤ i → (readVec16 t dst).getLsbD i = (readVec16 s dst).getLsbD i) ∧
      t.pc = s.pc + BitVec.ofNat 64 len

/-- R120: where its premises hold, `VPMADDWD xmm1, xmm2, xmm3/m128` completes; the four low doublewords of V[dst] are
computed from V[src1] and the operand, and every bit from 128 upwards is 0. -/
def Obligations.Vex128FormCompletesAndZeroesUpperBits : Prop :=
  ∀ (dst src1 : Fin 16) (src2 : RM 16) (len : Nat) (s : State), ready (.vpmaddwdVex128 dst src1 src2 len) s = true →
    ∃ t, exec (.vpmaddwdVex128 dst src1 src2 len) s = .next t ∧
      (∀ j, j < 4 →
        dwordOf (readVec16 t dst) j = maddDword (readVec16 s src1) (rmValue .vex128 len (readVec16 s) s src2) j) ∧
      (∀ i, 128 ≤ i → (readVec16 t dst).getLsbD i = false) ∧
      t.pc = s.pc + BitVec.ofNat 64 len

/-- R121: the same with eight doublewords and the bits from 256 upwards. -/
def Obligations.Vex256FormCompletesAndZeroesUpperBits : Prop :=
  ∀ (dst src1 : Fin 16) (src2 : RM 16) (len : Nat) (s : State), ready (.vpmaddwdVex256 dst src1 src2 len) s = true →
    ∃ t, exec (.vpmaddwdVex256 dst src1 src2 len) s = .next t ∧
      (∀ j, j < 8 →
        dwordOf (readVec16 t dst) j = maddDword (readVec16 s src1) (rmValue .vex256 len (readVec16 s) s src2) j) ∧
      (∀ i, 256 ≤ i → (readVec16 t dst).getLsbD i = false) ∧
      t.pc = s.pc + BitVec.ofNat 64 len

/-- R130, R133 to R135: where its premises hold, form EVEX128 completes; each of the four low doublewords of V[dst] is
computed where there is no writemask or its mask bit is set, and otherwise zero (zeroing) or kept (merging); every
bit from 128 upwards is 0. -/
def Obligations.Evex128FormCompletesUnderMask : Prop :=
  ∀ (dst src1 : Fin 32) (src2 : RM 32) (k : Fin 8) (z : Bool) (len : Nat) (s : State),
    ready (.vpmaddwdEvex128 dst src1 src2 k z len) s = true →
    ∃ t, exec (.vpmaddwdEvex128 dst src1 src2 k z len) s = .next t ∧
      (∀ j, j < 4 → dwordOf (readVec t dst) j =
        if k = 0 ∨ (readK s k).getLsbD j = true then
          maddDword (readVec s src1) (rmValue .evex128 len (readVec s) s src2) j
        else if z = true then 0#32 else dwordOf (readVec s dst) j) ∧
      (∀ i, 128 ≤ i → (readVec t dst).getLsbD i = false) ∧
      t.pc = s.pc + BitVec.ofNat 64 len

/-- R131, R133 to R135: the same with eight doublewords and the bits from 256 upwards. -/
def Obligations.Evex256FormCompletesUnderMask : Prop :=
  ∀ (dst src1 : Fin 32) (src2 : RM 32) (k : Fin 8) (z : Bool) (len : Nat) (s : State),
    ready (.vpmaddwdEvex256 dst src1 src2 k z len) s = true →
    ∃ t, exec (.vpmaddwdEvex256 dst src1 src2 k z len) s = .next t ∧
      (∀ j, j < 8 → dwordOf (readVec t dst) j =
        if k = 0 ∨ (readK s k).getLsbD j = true then
          maddDword (readVec s src1) (rmValue .evex256 len (readVec s) s src2) j
        else if z = true then 0#32 else dwordOf (readVec s dst) j) ∧
      (∀ i, 256 ≤ i → (readVec t dst).getLsbD i = false) ∧
      t.pc = s.pc + BitVec.ofNat 64 len

/-- R132, R133 to R135: the same with sixteen doublewords, which are all of the register. -/
def Obligations.Evex512FormCompletesUnderMask : Prop :=
  ∀ (dst src1 : Fin 32) (src2 : RM 32) (k : Fin 8) (z : Bool) (len : Nat) (s : State),
    ready (.vpmaddwdEvex512 dst src1 src2 k z len) s = true →
    ∃ t, exec (.vpmaddwdEvex512 dst src1 src2 k z len) s = .next t ∧
      (∀ j, j < 16 → dwordOf (readVec t dst) j =
        if k = 0 ∨ (readK s k).getLsbD j = true then
          maddDword (readVec s src1) (rmValue .evex512 len (readVec s) s src2) j
        else if z = true then 0#32 else dwordOf (readVec s dst) j) ∧
      t.pc = s.pc + BitVec.ofNat 64 len

/-- R108, R173: an instruction completes exactly where all its premises hold. Two points of `ready` are the model's choice:
without premise `P_ac` an operand must be a multiple of its own size (log entry 11, DEDUCED), and a term that no bytes
decode to completes under the same premises as any other (log entry 21, DEDUCED). -/
def Obligations.InstructionsCompleteExactlyWhenReady : Prop :=
  ∀ (i : Instr) (s : State), (∃ t, exec i s = .next t) ↔ ready i s = true

/-! ### Frames -/

/-- R20, R26, R35, R42: what the six vector forms leave unchanged: every vector register but the destination, every
MMX, opmask and general register, x87 state, every byte of memory, the mark and the configuration. -/
def Obligations.VectorFormsFrame : Prop :=
  ∀ (i : Instr) (s t : State) (d : Nat), dstVec i = some d → exec i s = .next t →
    (∀ r : Fin 32, r.val ≠ d → readVec t r = readVec s r) ∧
    (∀ r, readMm t r = readMm s r) ∧ (∀ r, readK t r = readK s r) ∧ (∀ r, readG t r = readG s r) ∧
    t.x87Hi = s.x87Hi ∧ t.x87Tag = s.x87Tag ∧ t.x87Top = s.x87Top ∧
    (∀ a, t.mem.byteAt a = s.mem.byteAt a) ∧ t.mark = s.mark ∧ t.cfg = s.cfg

/-- R20, R22: what form MMX leaves unchanged: every MMX register but the destination, every vector, opmask and general
register, every byte of memory, the mark and the configuration. That bits 79:64 of every other x87 register stay is the
model's choice (log entry 7, PRESUMED; R37 gives the x87 effects as general knowledge and not as rules). The x87 tag word
and top of stack, which that entry lets the form change, are not named here. -/
def Obligations.MmxFormFrame : Prop :=
  ∀ (dst : Fin 8) (src : RM 8) (len : Nat) (s t : State), exec (.pmaddwdMmx dst src len) s = .next t →
    (∀ r, r ≠ dst → readMm t r = readMm s r) ∧
    (∀ r : Fin 8, r ≠ dst → t.x87Hi.get r = s.x87Hi.get r) ∧
    (∀ r, readVec t r = readVec s r) ∧ (∀ r, readK t r = readK s r) ∧ (∀ r, readG t r = readG s r) ∧
    (∀ a, t.mem.byteAt a = s.mem.byteAt a) ∧ t.mark = s.mark ∧ t.cfg = s.cfg

/-- R37 (general knowledge; the model's choice, log entry 7): form MMX marks the whole x87 tag word valid, sets the top
of stack to 0 and bits 79:64 of the x87 register it writes to all ones. -/
def Obligations.MmxFormMarksX87Registers : Prop :=
  ∀ (dst : Fin 8) (src : RM 8) (len : Nat) (s t : State), exec (.pmaddwdMmx dst src len) s = .next t →
    t.x87Tag = 0#16 ∧ t.x87Top = 0#3 ∧ t.x87Hi.get dst = 0xFFFF#16

/-! ### Faults and refusals of an instruction -/

/-- R143: a form whose CPUID condition does not hold, or whose vector length exceeds MAXVL, raises `UD`. -/
def Obligations.AbsentFormRaisesUd : Prop :=
  ∀ (i : Instr) (s : State), inSpace s.cfg (s.pc.toNat + i.len) 1 = true →
    (match i.form with
      | .mmx => s.cfg.feat.mmx = false
      | .sse => s.cfg.feat.sse2 = false
      | .vex128 => s.cfg.feat.avx = false
      | .vex256 => s.cfg.feat.avx2 = false
      | .evex128 => ¬ (s.cfg.feat.avx512vl = true ∧ s.cfg.feat.avx512bw = true ∨ s.cfg.feat.avx10v1 = true)
      | .evex256 => ¬ (s.cfg.feat.avx512vl = true ∧ s.cfg.feat.avx512bw = true ∨ s.cfg.feat.avx10v1 = true)
      | .evex512 => ¬ (s.cfg.feat.avx512bw = true ∨ s.cfg.feat.avx10v1 = true)) ∨
      s.cfg.maxvl.bits < formVl i.form →
    exec i s = .fault (.ud s.pc)

/-- R144: a form that is present but not enabled raises `UD`. -/
def Obligations.DisabledFormRaisesUd : Prop :=
  ∀ (i : Instr) (s : State), inSpace s.cfg (s.pc.toNat + i.len) 1 = true →
    s.cfg.os.on i.form = false → exec i s = .fault (.ud s.pc)

/-- R145: with `TsClear` false every form that passes the `UD` checks raises `NM`, whatever its operand. -/
def Obligations.TaskSwitchedRaisesNm : Prop :=
  ∀ (i : Instr) (s : State), inSpace s.cfg (s.pc.toNat + i.len) 1 = true →
    formSupported s.cfg i.form = true → s.cfg.os.on i.form = true → s.cfg.tsClear = false →
    exec i s = .fault (.nm s.pc)

/-- R146: with `x87_pending` true form MMX raises `MF` after the `UD` and `NM` checks, whatever its operand; no other
form ever raises `MF`. -/
def Obligations.PendingX87RaisesMfOnMmxFormOnly : Prop :=
  (∀ (dst : Fin 8) (src : RM 8) (len : Nat) (s : State), inSpace s.cfg (s.pc.toNat + len) 1 = true →
    formSupported s.cfg .mmx = true → s.cfg.os.on .mmx = true → s.cfg.tsClear = true → s.cfg.x87Pending = true →
    exec (.pmaddwdMmx dst src len) s = .fault (.mf s.pc)) ∧
  (∀ (i : Instr) (s : State) (pc : QWord), i.form ≠ .mmx → exec i s ≠ .fault (.mf pc))

/-- R148: a memory operand of form SSE whose address is not a multiple of 16 raises `GP_Align`, whether the read is
admitted or not; no other form ever raises it. -/
def Obligations.MisalignedSseOperandRaisesGpAlign : Prop :=
  (∀ (dst : Fin 16) (m : MemExpr) (len : Nat) (s : State), inSpace s.cfg (s.pc.toNat + len) 1 = true →
    formReady .sse s = true → (effAddr m len s).extractLsb' 0 4 ≠ 0#4 →
    exec (.pmaddwdSse dst (.mem m) len) s = .fault (.gpAlign s.pc (effAddr m len s) 16)) ∧
  (∀ (i : Instr) (s : State) (pc a : QWord) (n : Nat), i.form ≠ .sse → exec i s ≠ .fault (.gpAlign pc a n))

/-- R147, R44, R136: a memory operand that is not admitted raises `MemFault` with its address and the form's size, in
every form and whatever the writemask; form SSE tests its alignment first. -/
def Obligations.UnadmittedOperandRaisesMemFault : Prop :=
  ∀ (i : Instr) (m : MemExpr) (s : State), inSpace s.cfg (s.pc.toNat + i.len) 1 = true →
    formReady i.form s = true → i.memOperand = some m →
    (i.form = .sse → (effAddr m i.len s).extractLsb' 0 4 = 0#4) →
    admits s.cfg .read (effAddr m i.len s).toNat (formBytes i.form) = false →
    exec i s = .fault (.memFault s.pc (effAddr m i.len s) (formBytes i.form))

/-- R50: where alignment checking cannot be assumed off, a misaligned memory operand of any form but SSE (which has its own
fault) is a `MemFault`. That 'misaligned' means 'not a multiple of the operand's own size' is the model's choice (log entry
11, DEDUCED): R50 does not say what it means. -/
def Obligations.AlignmentCheckingMakesMisalignedOperandsFault : Prop :=
  ∀ (i : Instr) (m : MemExpr) (s : State), inSpace s.cfg (s.pc.toNat + i.len) 1 = true →
    formReady i.form s = true → i.memOperand = some m → i.form ≠ .sse → s.cfg.acOff = false →
    ¬ formBytes i.form ∣ (effAddr m i.len s).toNat →
    exec i s = .fault (.memFault s.pc (effAddr m i.len s) (formBytes i.form))

/-- R34: where the instruction's successor, or a byte the decoder needs, lies beyond the address range of the mode, the step
is refused as `PcRange`. That the refusal comes before every other fault of the instruction, and before `FetchFault` at the
same byte, is the model's choice (log entry 14, DEDUCED). -/
def Obligations.LeavingTheAddressRangeIsRefused : Prop :=
  (∀ (i : Instr) (s : State), inSpace s.cfg (s.pc.toNat + i.len) 1 = false → exec i s = .refused .pcRange) ∧
  (∀ (s : State) (bs : List Byte), s.mark = .clear → codeAt s bs → decode s.cfg.mode64 bs = .short →
    inSpace s.cfg (s.pc.toNat + bs.length) 1 = false → step s = .refused .pcRange)

/-- R141, R149: an instruction ends in no fault but the five that decoding has not already raised, in no refusal but
`PcRange`, and every fault records pc. -/
def Obligations.InstructionsStopOnlyForStatedReasons : Prop :=
  ∀ (i : Instr) (s : State),
    (∀ r, exec i s = .refused r → r = .pcRange) ∧
    (∀ f, exec i s = .fault f →
      f = .ud s.pc ∨ f = .nm s.pc ∨ (f = .mf s.pc ∧ i.form = .mmx) ∨
      ∃ m, i.memOperand = some m ∧
        (f = .gpAlign s.pc (effAddr m i.len s) 16 ∧ i.form = .sse ∨
         f = .memFault s.pc (effAddr m i.len s) (formBytes i.form)))

/-! ### Operands -/

/-- R43: byte i of what a memory read of n bytes gives is the byte at address + i, and nothing stands above it. -/
def Obligations.MemoryReadsAreLittleEndian : Prop :=
  ∀ (s : State) (a : QWord) (n : Nat), n ≤ 64 →
    (∀ i, i < n → (memRead s a n).extractLsb' (8 * i) 8 = s.mem.byteAt (a.toNat + i)) ∧
    (∀ j, 8 * n ≤ j → (memRead s a n).getLsbD j = false)

/-- R72: without RIP the effective address is base plus scaled index plus displacement, modulo 2^64, or modulo 2^32
and zero-extended; an absent base or index counts as 0. -/
def Obligations.EffectiveAddressIsBasePlusIndexPlusDisplacement : Prop :=
  ∀ (m : MemExpr) (len : Nat) (s : State), m.rip = false →
    let base := (m.base.map (readG s)).getD 0#64
    let index := (m.index.map fun x => readG s x.reg <<< x.scale.val).getD 0#64
    let sum := base + index + BitVec.ofInt 64 m.disp
    (m.asz = .a64 → effAddr m len s = sum) ∧ (m.asz = .a32 → effAddr m len s = (sum.setWidth 32).setWidth 64)

/-- R73: a RIP-relative effective address is the address of the next instruction plus the displacement, modulo 2^64,
or modulo 2^32 with 32-bit addresses. -/
def Obligations.RipRelativeAddressIsNextInstructionPlusDisplacement : Prop :=
  ∀ (m : MemExpr) (len : Nat) (s : State), m.rip = true → m.index = none →
    let sum := s.pc + BitVec.ofNat 64 len + BitVec.ofInt 64 m.disp
    (m.asz = .a64 → effAddr m len s = sum) ∧ (m.asz = .a32 → effAddr m len s = (sum.setWidth 32).setWidth 64)

/-- R41, R47, R48: no admitted access runs past the top of the address range or, in 64-bit mode, touches an address
whose bits 63:47 (63:56 with 5-level paging) are not all equal. -/
def Obligations.AdmittedAccessesStayInCanonicalSpace : Prop :=
  ∀ (c : Config) (kind : AccessKind) (a n i : Nat), admits c kind a n = true → i < n →
    a + i < 2 ^ (if c.mode64 then 64 else 32) ∧
    (c.mode64 = true → c.la57 = false → (a + i) / 2 ^ 47 = 0 ∨ (a + i) / 2 ^ 47 = 2 ^ 17 - 1) ∧
    (c.mode64 = true → c.la57 = true → (a + i) / 2 ^ 56 = 0 ∨ (a + i) / 2 ^ 56 = 2 ^ 8 - 1)

/-- R41: `Admits` is any predicate on kind, address and size: whatever predicate is wanted, some list of grants gives it
wherever an access lies inside the address range of the mode (log entry 10). -/
def Obligations.AnyAdmissionPredicateCanBeGiven : Prop :=
  ∀ (c : Config) (wanted : AccessKind → Nat → Nat → Bool), ∃ gs : List Grant, ∀ (kind : AccessKind) (a n : Nat),
    n ≤ 64 → admits { c with grants := gs } kind a n = (inSpace c a n && wanted kind a n)

/-- R36's table: what `OsEnabled` and `TsClear` stand for in the control registers. -/
def Obligations.OsEnabledFollowsControlRegisters : Prop :=
  ∀ c : ControlRegs,
    ((osEnabledOf c).on .mmx = true ↔ c.cr0.getLsbD 2 = false) ∧
    ((osEnabledOf c).on .sse = true ↔ c.cr0.getLsbD 2 = false ∧ c.cr4.getLsbD 9 = true) ∧
    (∀ f, f = .vex128 ∨ f = .vex256 → ((osEnabledOf c).on f = true ↔
      c.cr4.getLsbD 18 = true ∧ c.xcr0.getLsbD 1 = true ∧ c.xcr0.getLsbD 2 = true)) ∧
    (∀ f, f = .evex128 ∨ f = .evex256 ∨ f = .evex512 → ((osEnabledOf c).on f = true ↔
      c.cr4.getLsbD 18 = true ∧ c.xcr0.getLsbD 1 = true ∧ c.xcr0.getLsbD 2 = true ∧
      c.xcr0.getLsbD 5 = true ∧ c.xcr0.getLsbD 6 = true ∧ c.xcr0.getLsbD 7 = true)) ∧
    (tsClearOf c = true ↔ c.cr0.getLsbD 3 = false)

/-! ### Masks -/

/-- R134, R29: only bits KL-1:0 of the one writemask register are read: two states that agree in them, and differ in
the opmask registers alone, take the same next state. -/
def Obligations.OnlyLowMaskBitsAreRead : Prop :=
  ∀ (i : Instr) (s t : State) (k' : Vector QWord 8),
    (∀ j, j < formKl i.form → maskReg i ≠ 0 →
      (readK s (maskReg i)).getLsbD j = (k'.get (maskReg i)).getLsbD j) →
    exec i s = .next t → exec i { s with k := k' } = .next { t with k := k' }

/-- R130, corner cases: without a writemask form EVEX128 gives what form VEX128 gives on the same operands. -/
def Obligations.UnmaskedEvex128AgreesWithVex128 : Prop :=
  ∀ (dst src1 n : Fin 16) (len : Nat) (s : State),
    formReady .vex128 s = true → formReady .evex128 s = true →
    exec (.vpmaddwdEvex128 (dst.castLE (by decide)) (src1.castLE (by decide)) (.reg (n.castLE (by decide))) 0 false len) s =
      exec (.vpmaddwdVex128 dst src1 (.reg n) len) s ∧
    ∀ m, exec (.vpmaddwdEvex128 (dst.castLE (by decide)) (src1.castLE (by decide)) (.mem m) 0 false len) s =
      exec (.vpmaddwdVex128 dst src1 (.mem m) len) s

/-! ### Steps and runs -/

/-- R88, R108: where the bytes at pc decode to an instruction, a step of an unmarked state is exactly `exec` of it;
exec itself moves pc past the instruction's bytes. -/
def Obligations.StepRunsTheDecodedInstruction : Prop :=
  ∀ (s : State) (bs : List Byte) (i : Instr), s.mark = .clear → codeAt s bs →
    decode s.cfg.mode64 bs = .instr i → step s = exec i s

/-- R142: where a needed byte cannot be fetched although it lies in the address range, the step is `FetchFault` at that
byte; where the bytes that can be fetched are enough to decode, there is no `FetchFault`, whatever follows them. -/
def Obligations.UnfetchableByteRaisesFetchFault : Prop :=
  (∀ (s : State) (bs : List Byte), s.mark = .clear → codeAt s bs → decode s.cfg.mode64 bs = .short →
    inSpace s.cfg (s.pc.toNat + bs.length) 1 = true → admits s.cfg .fetch (s.pc.toNat + bs.length) 1 = false →
    step s = .fault (.fetchFault s.pc (s.pc + BitVec.ofNat 64 bs.length))) ∧
  (∀ (s : State) (bs : List Byte) (pc a : QWord), s.mark = .clear → codeAt s bs → decode s.cfg.mode64 bs ≠ .short →
    step s ≠ .fault (.fetchFault pc a))

/-- R141: every fault of an unmarked state records the pc of the faulting instruction. -/
def Obligations.EveryFaultRecordsPc : Prop :=
  ∀ (s : State) (f : Fault), s.mark = .clear → step s = .fault f → faultPc f = s.pc

/-- R12, R150: a fault changes nothing but the mark, ends the run for good, and is never final. -/
def Obligations.FaultsArePreciseAndTerminal : Prop :=
  ∀ (s : State) (f : Fault) (n : Nat), isSettled s = false → step s = .fault f →
    run (n + 1) s = { s with mark := .faulted f } ∧ isFinal (run (n + 1) s) = false ∧ step (run (n + 1) s) = .fault f

/-- R12, R92: a refusal marks the state for good, changes nothing else of it, and is never final. -/
def Obligations.RefusalsAreTerminal : Prop :=
  ∀ (s : State) (r : Refusal) (n : Nat), isSettled s = false → step s = .refused r →
    run (n + 1) s = { s with mark := .refused r } ∧ isFinal (run (n + 1) s) = false ∧ step (run (n + 1) s) = .refused r

/-- R176: a run that has reached `end_addr` stays there; no byte is fetched, whatever stands at that address. -/
def Obligations.FinalStatesStay : Prop :=
  ∀ (s : State) (m : Memory) (n : Nat), isFinal s = true → run n { s with mem := m } = { s with mem := m }

/-- R20, R41: no step writes memory, an opmask or general register, or the configuration, and none marks the next
state. -/
def Obligations.StepsNeverWriteMemoryMaskOrGeneralRegisters : Prop :=
  ∀ s t : State, step s = .next t → t.mem = s.mem ∧ t.k = s.k ∧ t.g = s.g ∧ t.cfg = s.cfg ∧ t.mark = .clear

/-- R33, R90, R176: a step that completes advances pc, without wrapping, by the length of the instruction decoded: 3 to
13 bytes; nothing in scope branches. -/
def Obligations.StepsAdvancePcByTheInstructionLength : Prop :=
  ∀ s t : State, step s = .next t →
    ∃ i, decode s.cfg.mode64 (bytesAtPc s) = .instr i ∧ 3 ≤ i.len ∧ i.len ≤ 13 ∧ t.pc.toNat = s.pc.toNat + i.len

/-- The invariant is kept by every step: memory's canonical form, no vector bits above MAXVL, pc inside the address
range, no mark. -/
def Obligations.EveryStepKeepsTheInvariant : Prop :=
  ∀ s t : State, Inv s → step s = .next t → Inv t

/-- The state after reset meets the invariant. -/
def Obligations.ResetMeetsTheInvariant : Prop := Inv State.reset

/-- R176: from every state a run ends in finitely many steps: at `end_addr`, in a fault, or in a refusal. -/
def Obligations.EveryRunEnds : Prop := ∀ s : State, ∃ n, n ≤ 2 ^ 63 ∧ isSettled (run n s) = true

/-- The model's choices for the state after reset (log entries 1 to 5; the spec defines no reset, and R172 gives, as general
knowledge, the registers the family clears): pc, every register and the x87 state (1, 2), memory (3), the configuration (4)
with what it admits (5), and the mark (R171: 'clear at launch'). -/
def Obligations.ResetLeavesTheLoggedValues : Prop :=
  State.reset.pc = 0xFFFFFFF0#64 ∧ State.reset.mark = .clear ∧
  (∀ i, readMm State.reset i = 0#512) ∧ (∀ i, readVec State.reset i = 0#512) ∧ (∀ i, readK State.reset i = 0#64) ∧
  (∀ i : Fin 8, State.reset.x87Hi.get i = 0#16) ∧ State.reset.x87Tag = 0x5555#16 ∧ State.reset.x87Top = 0#3 ∧
  (∀ i, readG State.reset i = 0#64) ∧
  State.reset.mem = [] ∧ (∀ a, State.reset.mem.byteAt a = 0#8) ∧
  State.reset.cfg = launchConfig ∧ launchConfig.maxvl = .v512 ∧ launchConfig.mode64 = true ∧
  (∀ f, formSupported launchConfig f = true ∧ launchConfig.os.on f = true) ∧
  launchConfig.tsClear = true ∧ launchConfig.x87Pending = false ∧ launchConfig.acOff = true ∧
  launchConfig.la57 = false ∧ launchConfig.endAddr = 0#64 ∧
  (∀ a, admits launchConfig .fetch a 1 = inSpace launchConfig a 1) ∧
  (∀ f a, admits launchConfig .read a (formBytes f) = inSpace launchConfig a (formBytes f))

/-! ### Decoding -/

/-- R88, R142: decoding needs only the instruction's own bytes: what follows them changes nothing, and they alone give
the same instruction; a fault or refusal of the decoder does not depend on later bytes either. -/
def Obligations.DecodingReadsOnlyTheBytesItNeeds : Prop :=
  (∀ (mode64 : Bool) (bs more : List Byte), decode mode64 bs ≠ .short → decode mode64 (bs ++ more) = decode mode64 bs) ∧
  (∀ (mode64 : Bool) (bs : List Byte) (i : Instr), decode mode64 bs = .instr i →
    i.len ≤ bs.length ∧ decode mode64 (bs.take i.len) = .instr i)

/-- R85, R90: whatever the decoder accepts is well-formed: registers below 8 outside 64-bit mode, no zeroing without a
mask, RIP-relative addresses in 64-bit mode only and without base or index, 3 to 13 bytes. -/
def Obligations.DecodedInstructionsAreWellFormed : Prop :=
  ∀ (mode64 : Bool) (bs : List Byte) (i : Instr), decode mode64 bs = .instr i →
    i.wf mode64 (if mode64 then 32 else 8) = true

/-- R27, R85: an accepted form that the processor has names only registers below NVEC. -/
def Obligations.SupportedInstructionsNameExistingRegisters : Prop :=
  ∀ (c : Config) (bs : List Byte) (i : Instr), decode c.mode64 bs = .instr i → formSupported c i.form = true →
    i.wf c.mode64 (nvec c) = true

/-- Decoding inverts encoding, in every spelling: every operand at every value a well-formed instruction has comes back,
with the number of bytes as its length (R62 to R90). -/
def Obligations.DecodingInvertsEncoding : Prop :=
  ∀ (mode64 : Bool) (sp : Spelling) (i : Instr), i.wf mode64 (if mode64 then 32 else 8) = true →
    decode mode64 (encode mode64 sp i) = .instr (i.withLen (encode mode64 sp i).length)

/-- Words written out from the encodings of R68, R75, R76 and R80, one for each form. -/
def Obligations.WordsFromTheSpecDecode : Prop :=
  decode true [0x0F#8, 0xF5#8, 0xC1#8] = .instr (.pmaddwdMmx 0 (.reg 1) 3) ∧
  decode true [0x66#8, 0x44#8, 0x0F#8, 0xF5#8, 0xCA#8] = .instr (.pmaddwdSse 9 (.reg 2) 5) ∧
  decode true [0xC5#8, 0xE9#8, 0xF5#8, 0xCB#8] = .instr (.vpmaddwdVex128 1 2 (.reg 3) 4) ∧
  decode true [0xC4#8, 0xE1#8, 0xED#8, 0xF5#8, 0xCB#8] = .instr (.vpmaddwdVex256 1 2 (.reg 3) 5) ∧
  decode true [0x62#8, 0xF1#8, 0x6D#8, 0x89#8, 0xF5#8, 0xCB#8] =
    .instr (.vpmaddwdEvex128 1 2 (.reg 3) 1 true 6) ∧
  decode true [0x62#8, 0xF1#8, 0x6D#8, 0x2A#8, 0xF5#8, 0x4F#8, 0x01#8] =
    .instr (.vpmaddwdEvex256 1 2 (.mem ⟨some 7, none, 32, false, .a64⟩) 2 false 7) ∧
  decode true [0x62#8, 0xA1#8, 0x6D#8, 0x40#8, 0xF5#8, 0xCB#8] =
    .instr (.vpmaddwdEvex512 17 18 (.reg 19) 0 false 6)

/-- R81, R82: an EVEX prefix that selects VPMADDWD but has L'L = 11b, b = 1, or z = 1 with aaa = 000b raises `UD`, in both
modes (outside 64-bit mode P0[7:6] = 11b tells it from BOUND), behind any legacy prefix run that is not refused and any REX
prefix, whatever follows the opcode. -/
def Obligations.IllegalEvexCombinationsRaiseUd : Prop :=
  ∀ (mode64 : Bool) (p : List Byte) (rex : Option Byte) (p0 p1 p2 : Byte) (rest : List Byte),
    headOk mode64 p rex → startsVex mode64 p0 → evexSelects p0 p1 →
    (p2.extractLsb' 5 2 = 3#2 ∨ p2.getLsbD 4 = true ∨ (p2.getLsbD 7 = true ∧ p2.extractLsb' 0 3 = 0#3)) →
    decode mode64 (p ++ rex.toList ++ 0x62#8 :: p0 :: p1 :: p2 :: 0xF5#8 :: rest) = .ud

/-- R64, R65: LOCK anywhere in a run of legacy prefixes that is not refused makes the legacy forms raise `UD`, in both modes,
with or without a REX prefix in between. -/
def Obligations.LockPrefixRaisesUd : Prop :=
  ∀ (mode64 : Bool) (p : List Byte) (rex : Option Byte) (rest : List Byte),
    headOk mode64 p rex → 0xF0#8 ∈ p → decode mode64 (p ++ rex.toList ++ 0x0F#8 :: 0xF5#8 :: rest) = .ud

/-- R65, R66, R77, R81: LOCK, 66H, F2H, F3H or a REX prefix before a VEX or EVEX prefix that selects VPMADDWD raises `UD`, in
both modes, whatever the other fields of the prefix and whatever follows the opcode. -/
def Obligations.IllegalPrefixBeforeVexOrEvexRaisesUd : Prop :=
  ∀ (mode64 : Bool) (p : List Byte) (rex : Option Byte), headOk mode64 p rex →
    rex.isSome = true ∨ 0xF0#8 ∈ p ∨ 0x66#8 ∈ p ∨ 0xF2#8 ∈ p ∨ 0xF3#8 ∈ p →
    (∀ (b1 : Byte) (rest : List Byte), startsVex mode64 b1 → b1.extractLsb' 0 2 = 1#2 →
      decode mode64 (p ++ rex.toList ++ 0xC5#8 :: b1 :: 0xF5#8 :: rest) = .ud) ∧
    (∀ (b1 b2 : Byte) (rest : List Byte), startsVex mode64 b1 → b1.extractLsb' 0 5 = 1#5 → b2.extractLsb' 0 2 = 1#2 →
      decode mode64 (p ++ rex.toList ++ 0xC4#8 :: b1 :: b2 :: 0xF5#8 :: rest) = .ud) ∧
    (∀ (p0 p1 p2 : Byte) (rest : List Byte), startsVex mode64 p0 → evexSelects p0 p1 →
      decode mode64 (p ++ rex.toList ++ 0x62#8 :: p0 :: p1 :: p2 :: 0xF5#8 :: rest) = .ud)

/-- R45, R65, R74: which legacy prefix runs are refused, and as what: a repetition, then FS or GS, then 67H outside 64-bit
mode, whatever follows the run; F2H or F3H (without LOCK) before a legacy form, with or without a REX prefix. -/
def Obligations.PrefixRunsAreRefusedByName : Prop :=
  (∀ (mode64 : Bool) (p : List Byte) (b : Byte) (rest : List Byte), (∀ x ∈ p, isLegacyPrefix x = true) →
    isLegacyPrefix b = false →
    (¬ runOnce p → decode mode64 (p ++ b :: rest) = .refused .prefixRepeat) ∧
    (runOnce p → 0x64#8 ∈ p ∨ 0x65#8 ∈ p → decode mode64 (p ++ b :: rest) = .refused .fsGsOverride) ∧
    (runOnce p → 0x64#8 ∉ p → 0x65#8 ∉ p → 0x67#8 ∈ p → mode64 = false →
      decode mode64 (p ++ b :: rest) = .refused .addr16)) ∧
  (∀ (mode64 : Bool) (p : List Byte) (rex : Option Byte) (rest : List Byte), headOk mode64 p rex → 0xF0#8 ∉ p →
    0xF2#8 ∈ p ∨ 0xF3#8 ∈ p →
    decode mode64 (p ++ rex.toList ++ 0x0F#8 :: 0xF5#8 :: rest) = .refused .repPrefix)

/-- R79, R82: outside 64-bit mode a VEX or EVEX prefix that selects VPMADDWD and is legal otherwise, but names a register
above 7, is refused as `HighRegIn32`. -/
def Obligations.HighRegistersAreRefusedIn32BitMode : Prop :=
  ∀ p : List Byte, headOk false p none → 0xF0#8 ∉ p → 0x66#8 ∉ p → 0xF2#8 ∉ p → 0xF3#8 ∉ p →
    (∀ (b1 b2 : Byte) (rest : List Byte), startsVex false b1 → b1.extractLsb' 0 5 = 1#5 → b2.extractLsb' 0 2 = 1#2 →
      b1.getLsbD 5 = false ∨ b2.getLsbD 6 = false →
      decode false (p ++ 0xC4#8 :: b1 :: b2 :: 0xF5#8 :: rest) = .refused .highRegIn32) ∧
    (∀ (p0 p1 p2 : Byte) (rest : List Byte), startsVex false p0 → evexSelects p0 p1 →
      p2.extractLsb' 5 2 ≠ 3#2 → p2.getLsbD 4 = false → (p2.getLsbD 7 = true → p2.extractLsb' 0 3 ≠ 0#3) →
      p0.getLsbD 5 = false ∨ p0.getLsbD 4 = false ∨ p1.getLsbD 6 = false ∨ p2.getLsbD 3 = false →
      decode false (p ++ 0x62#8 :: p0 :: p1 :: p2 :: 0xF5#8 :: rest) = .refused .highRegIn32)

/-- R81, R88: an EVEX prefix whose P0[3] is 1 or P1[2] is 0 is refused as `EvexReserved`, in both modes, before its map, pp
and opcode are looked at. -/
def Obligations.ReservedEvexBitsAreRefused : Prop :=
  ∀ (mode64 : Bool) (p : List Byte) (rex : Option Byte) (p0 p1 p2 : Byte) (rest : List Byte), headOk mode64 p rex →
    startsVex mode64 p0 → p0.getLsbD 3 = true ∨ p1.getLsbD 2 = false →
    decode mode64 (p ++ rex.toList ++ 0x62#8 :: p0 :: p1 :: p2 :: rest) = .refused .evexReserved

/-- R69: a REX prefix, whatever its bits, leaves the register numbers of form MMX as they are. -/
def Obligations.RexLeavesMmxRegisterNumbers : Prop :=
  ∀ (rex : BitVec 4) (reg rm : BitVec 3) (rest : List Byte),
    decode true ((4#4 ++ rex) :: 0x0F#8 :: 0xF5#8 :: (3#2 ++ reg ++ rm) :: rest) =
      .instr (.pmaddwdMmx reg.toFin (.reg rm.toFin) 4)

/-- R79, R82, R92: what is refused as not PMADDWD, behind any legacy prefix run that is not refused and any REX prefix: a
first byte that is none of 0FH, C4H, C5H and 62H (and goes on neither the run nor, in 64-bit mode, a REX prefix); 0FH with
another byte than F5H; a C5H, C4H or 62H prefix with another map, pp or opcode byte; and, outside 64-bit mode, LES, LDS and
BOUND. -/
def Obligations.OtherOpcodesAreRefused : Prop :=
  ∀ (mode64 : Bool) (p : List Byte) (rex : Option Byte), headOk mode64 p rex →
    (∀ (b : Byte) (rest : List Byte),
      (rex = none → isLegacyPrefix b = false ∧ (mode64 = true → b.extractLsb' 4 4 ≠ 4#4)) →
      b ∉ [0x0F#8, 0xC4#8, 0xC5#8, 0x62#8] →
      decode mode64 (p ++ rex.toList ++ b :: rest) = .refused .notPmaddwd) ∧
    (∀ (b : Byte) (rest : List Byte), b ≠ 0xF5#8 →
      decode mode64 (p ++ rex.toList ++ 0x0F#8 :: b :: rest) = .refused .notPmaddwd) ∧
    (∀ (b1 op : Byte) (rest : List Byte), startsVex mode64 b1 → b1.extractLsb' 0 2 ≠ 1#2 ∨ op ≠ 0xF5#8 →
      decode mode64 (p ++ rex.toList ++ 0xC5#8 :: b1 :: op :: rest) = .refused .notPmaddwd) ∧
    (∀ (b1 b2 op : Byte) (rest : List Byte), startsVex mode64 b1 →
      b1.extractLsb' 0 5 ≠ 1#5 ∨ b2.extractLsb' 0 2 ≠ 1#2 ∨ op ≠ 0xF5#8 →
      decode mode64 (p ++ rex.toList ++ 0xC4#8 :: b1 :: b2 :: op :: rest) = .refused .notPmaddwd) ∧
    (∀ (p0 p1 p2 op : Byte) (rest : List Byte), startsVex mode64 p0 → p0.getLsbD 3 = false → p1.getLsbD 2 = true →
      p0.extractLsb' 0 3 ≠ 1#3 ∨ p1.extractLsb' 0 2 ≠ 1#2 ∨ op ≠ 0xF5#8 →
      decode mode64 (p ++ rex.toList ++ 0x62#8 :: p0 :: p1 :: p2 :: op :: rest) = .refused .notPmaddwd) ∧
    (∀ (b0 b1 : Byte) (rest : List Byte), ¬ startsVex mode64 b1 → b0 ∈ [0xC4#8, 0xC5#8, 0x62#8] →
      decode mode64 (p ++ rex.toList ++ b0 :: b1 :: rest) = .refused .notPmaddwd)
end

