-- ==== Sys2Proof/Laws/Arith.lean ====
section
/-! SUPPORT. What `pack` builds, bit by bit and doubleword by doubleword. -/

namespace Sys2Proof.Machine

/-- Every bit of a packed vector. -/
theorem getLsbD_pack (n : Nat) (f : Nat → DWord) (i : Nat) (h : n ≤ 16) :
    (pack n f).getLsbD i = (decide (i < 32 * n) && (f (i / 32)).getLsbD (i % 32)) := by
  induction n with
  | zero => simp [pack]
  | succ n ih =>
    simp only [pack, BitVec.getLsbD_or, ih (by omega), BitVec.getLsbD_shiftLeft, BitVec.getLsbD_setWidth]
    by_cases h1 : i < 32 * n
    · simp [h1, show i < 32 * (n + 1) by omega]
    · by_cases h2 : i < 32 * (n + 1)
      · have e1 : i / 32 = n := by omega
        have e2 : i % 32 = i - 32 * n := by omega
        simp [h1, h2, e1, e2, show i < 512 by omega, show i - 32 * n < 512 by omega]
      · have e3 : (f n).getLsbD (i - 32 * n) = false := BitVec.getLsbD_of_ge _ _ (by omega)
        simp [h1, h2, e3]

/-- A doubleword of a packed vector. -/
theorem lane_pack (n : Nat) (f : Nat → DWord) (j : Nat) (h : n ≤ 16) :
    lane (pack n f) j = if j < n then f j else 0#32 := by
  ext i hi
  simp only [lane, BitVec.getElem_extractLsb', getLsbD_pack n f _ h]
  have e1 : (32 * j + i) / 32 = j := by omega
  have e2 : (32 * j + i) % 32 = i := by omega
  by_cases hj : j < n
  · simp [hj, e1, e2, show 32 * j + i < 32 * n by omega, BitVec.getLsbD_eq_getElem hi]
  · simp [hj, show ¬ 32 * j + i < 32 * n by omega]

/-- A packed vector has no bits above its doublewords. -/
theorem pack_toNat_lt (n : Nat) (f : Nat → DWord) (h : n ≤ 16) : (pack n f).toNat < 2 ^ (32 * n) := by
  refine Nat.lt_pow_two_of_testBit _ fun i hi => ?_
  rw [BitVec.testBit_toNat, getLsbD_pack n f i h]
  simp [show ¬ i < 32 * n by omega]

end Sys2Proof.Machine
end

