-- ==== Sys2Proof/Laws/Decode.lean ====
section
/-! SUPPORT. What the decoder's stages consume: each reads a known number of bytes from the head of its list, and
what follows them changes nothing (spec/30_encoding.md R67, R70 to R73, R88, R90). -/

namespace Sys2Proof

open Machine

/-- A displacement takes at most four bytes (R70, R72). -/
theorem parseDisp_local {n k bs d rest} (h : parseDisp n k bs = some (d, rest)) :
    ∃ used, bs = used ++ rest ∧ used.length ≤ 4 ∧ ∀ more, parseDisp n k (used ++ more) = some (d, more) := by
  cases k with
  | none => simp [parseDisp] at h; obtain ⟨rfl, rfl⟩ := h; exact ⟨[], rfl, by simp, fun more => rfl⟩
  | one =>
    match bs, h with
    | b :: bs, h => simp [parseDisp] at h; obtain ⟨rfl, rfl⟩ := h; exact ⟨[b], rfl, by simp, fun more => rfl⟩
  | four =>
    match bs, h with
    | a :: b :: c :: e :: bs, h =>
      simp only [parseDisp, Option.some.injEq, Prod.mk.injEq] at h
      obtain ⟨rfl, rfl⟩ := h
      exact ⟨[a, b, c, e], rfl, by simp, fun more => rfl⟩

/-- A memory operand takes at most five bytes after ModRM: SIB and a displacement (R70, R71). -/
theorem parseMem_local {c mod rm bs d rest} (h : parseMem c mod rm bs = some (d, rest)) :
    ∃ used, bs = used ++ rest ∧ used.length ≤ 5 ∧ ∀ more, parseMem c mod rm (used ++ more) = some (d, more) := by
  unfold parseMem at h ⊢
  split at h
  · rename_i hrm
    match bs, h with
    | sib :: bs, h =>
      simp only [Option.map_eq_some_iff, Prod.exists] at h
      obtain ⟨d', r', hp, e⟩ := h
      obtain ⟨rfl, rfl⟩ := Prod.mk.inj e
      obtain ⟨used, rfl, hl, hu⟩ := parseDisp_local hp
      exact ⟨sib :: used, rfl, by simp; omega, fun more => by simp [hrm, hu]⟩
  · rename_i hrm
    simp only [Option.map_eq_some_iff, Prod.exists] at h
    obtain ⟨d', r', hp, e⟩ := h
    obtain ⟨rfl, rfl⟩ := Prod.mk.inj e
    obtain ⟨used, rfl, hl, hu⟩ := parseDisp_local hp
    exact ⟨used, rfl, by omega, fun more => by simp [hrm, hu]⟩

/-- ModRM and what belongs to it take one to six bytes (R67, R90). -/
theorem parseModRM_local {c bs reg rm rest} (h : parseModRM c bs = some (reg, rm, rest)) :
    ∃ used, bs = used ++ rest ∧ 1 ≤ used.length ∧ used.length ≤ 6 ∧
      ∀ more, parseModRM c (used ++ more) = some (reg, rm, more) := by
  match bs, h with
  | m :: bs, h =>
    simp only [parseModRM] at h
    split at h
    · rename_i hm
      simp at h; obtain ⟨rfl, rfl, rfl⟩ := h
      exact ⟨[m], rfl, by simp, by simp, fun more => by simp [parseModRM, hm]⟩
    · rename_i hm
      simp only [Option.map_eq_some_iff, Prod.exists] at h
      obtain ⟨d', r', hp, e⟩ := h
      simp at e; obtain ⟨rfl, rfl, rfl⟩ := e
      obtain ⟨used, rfl, hl, hu⟩ := parseMem_local hp
      exact ⟨m :: used, rfl, by simp, by simp; omega, fun more => by simp [parseModRM, hm, hu]⟩

/-- Bytes after the end of a legacy prefix run do not change the run (R64). -/
theorem splitRun_append (bs more : List Byte) (h : (splitRun bs).2 ≠ []) :
    splitRun (bs ++ more) = ((splitRun bs).1, (splitRun bs).2 ++ more) := by
  induction bs with
  | nil => simp [splitRun] at h
  | cons b bs ih =>
    simp only [splitRun, List.cons_append] at h ⊢
    split
    · rename_i hb; simp only [hb, if_true] at h; rw [ih h]
    · rfl

/-- A split run and its rest are the bytes again. -/
theorem splitRun_eq (bs) : (splitRun bs).1 ++ (splitRun bs).2 = bs := by
  induction bs with
  | nil => rfl
  | cons b bs ih => simp only [splitRun]; split <;> simp [ih]

/-- The run followed by its first other byte splits at the same place. -/
theorem splitRun_idem (bs : List Byte) (b0 rest used) (h : (splitRun bs).2 = b0 :: rest) :
    splitRun ((splitRun bs).1 ++ b0 :: used) = ((splitRun bs).1, b0 :: used) := by
  induction bs with
  | nil => simp [splitRun] at h
  | cons b bs ih =>
    simp only [splitRun] at h ⊢
    split
    · rename_i hb; simp only [hb, if_true] at h; simp [splitRun, hb, ih h]
    · rename_i hb; simp only [hb] at h
      simp at h
      obtain ⟨rfl, rfl⟩ := h
      simp [splitRun, hb]

/-- A displacement is out of bytes only with at most three. -/
theorem parseDisp_none {n k bs} (h : parseDisp n k bs = none) : bs.length ≤ 3 := by
  cases k with
  | none => simp [parseDisp] at h
  | one => cases bs <;> simp [parseDisp] at h; simp
  | four =>
    match bs, h with
    | [], _ => simp
    | [_], _ => simp
    | [_, _], _ => simp
    | [_, _, _], _ => simp
    | _ :: _ :: _ :: _ :: _, h => simp [parseDisp] at h

/-- A memory operand is out of bytes only with at most four. -/
theorem parseMem_none {c mod rm bs} (h : parseMem c mod rm bs = none) : bs.length ≤ 4 := by
  unfold parseMem at h
  split at h
  · match bs, h with
    | [], _ => simp
    | sib :: bs, h => have := parseDisp_none (Option.map_eq_none_iff.1 h); simp; omega
  · have := parseDisp_none (Option.map_eq_none_iff.1 h); omega

/-- ModRM is out of bytes only with at most five. -/
theorem parseModRM_none {c bs} (h : parseModRM c bs = none) : bs.length ≤ 5 := by
  cases bs with
  | nil => simp
  | cons m bs =>
    simp only [parseModRM] at h
    split at h
    · simp at h
    · have := parseMem_none (Option.map_eq_none_iff.1 h); simp; omega

/-- The last part is out of bytes only with at most five. -/
theorem finish_short {c t mk bs} (h : finish c t mk bs = .short) : bs.length ≤ 5 := by
  unfold finish at h
  split at h
  · exact parseModRM_none ‹_›
  · simp at h

/-- A legacy form is out of bytes only with at most six after 0FH. -/
theorem decodeLegacy_short {m t p rex bs} (h : decodeLegacy m t p rex bs = .short) : bs.length ≤ 6 := by
  cases bs with
  | nil => simp
  | cons op bs =>
    simp only [decodeLegacy] at h
    split at h; · simp at h
    split at h; · simp at h
    split at h; · simp at h
    have := finish_short h; simp; omega

/-- A VEX form is out of bytes only with at most six after its prefix bytes. -/
theorem decodeVex_short {m t p rex v bs} (h : decodeVex m t p rex v bs = .short) : bs.length ≤ 6 := by
  unfold decodeVex at h
  split at h; · simp at h
  cases bs with
  | nil => simp
  | cons op bs =>
    simp only at h
    split at h; · simp at h
    split at h; · simp at h
    split at h; · simp at h
    have := finish_short h; simp; omega

/-- An EVEX form is out of bytes only with at most six after its prefix bytes. -/
theorem decodeEvex_short {m t p rex v bs} (h : decodeEvex m t p rex v bs = .short) : bs.length ≤ 6 := by
  unfold decodeEvex at h
  split at h; · simp at h
  split at h; · simp at h
  cases bs with
  | nil => simp
  | cons op bs =>
    simp only at h
    split at h; · simp at h
    split at h; · simp at h
    split at h; · simp at h
    split at h; · simp at h
    have := finish_short h; simp; omega

/-- After its first byte an encoding is out of bytes only with at most nine. -/
theorem decodeOpcode_short {m t p rex b0 bs} (h : decodeOpcode m t p rex b0 bs = .short) : bs.length ≤ 9 := by
  unfold decodeOpcode at h
  split at h
  · have := decodeLegacy_short h; omega
  split at h
  · cases bs with
    | nil => simp
    | cons b1 bs =>
      simp only at h
      split at h
      · have := decodeVex_short h; simp; omega
      · simp at h
  split at h
  · cases bs with
    | nil => simp
    | cons b1 bs =>
      simp only at h
      split at h
      · cases bs with
        | nil => simp
        | cons b1 bs => have := decodeVex_short h; simp; omega
      · simp at h
  split at h
  · match bs, h with
    | [], h => simp
    | [_], h => simp
    | [_, _], h => simp
    | p0 :: p1 :: p2 :: bs, h =>
      simp only at h
      split at h
      · have := decodeEvex_short h; simp; omega
      · simp at h
  · simp at h

/-- The decoder is out of bytes only with at most eleven after the legacy prefix run (R90). -/
theorem decode_short {m bs} (h : decode m bs = .short) : bs.length ≤ (splitRun bs).1.length + 11 := by
  have e := congrArg List.length (splitRun_eq bs)
  unfold decode at h
  simp only at h
  cases hs : (splitRun bs).2 with
  | nil => rw [hs] at e; simp at e; omega
  | cons b0 rest =>
    rw [hs] at h e
    simp only [List.length_append, List.length_cons] at e
    simp only at h
    split at h; · simp at h
    split at h; · simp at h
    split at h; · simp at h
    split at h
    · cases rest with
      | nil => simp at e; omega
      | cons b1 rest => have := decodeOpcode_short h; simp at e; omega
    · have := decodeOpcode_short h; omega

/-- No legacy prefix byte is 00H (R64). -/
theorem splitRun_nonzero (bs : List Byte) : ∀ b ∈ (splitRun bs).1, b ≠ 0#8 := by
  induction bs with
  | nil => simp [splitRun]
  | cons b bs ih =>
    simp only [splitRun]
    split
    · rename_i h; intro x hx; rcases List.mem_cons.1 hx with rfl | hx
      · rintro rfl; revert h; decide
      · exact ih _ hx
    · simp

/-- A run of legacy prefix bytes ends at the first other byte. -/
theorem splitRun_run {p : List Byte} (hp : ∀ x ∈ p, isLegacyPrefix x = true) {b : Byte} (hb : isLegacyPrefix b = false)
    (rest : List Byte) : splitRun (p ++ b :: rest) = (p, b :: rest) := by
  induction p with
  | nil => simp [splitRun, hb]
  | cons x p ih =>
    simp only [List.cons_append, splitRun, hp x (by simp), if_true, ih fun y hy => hp y (by simp [hy])]

/-- The decoder looks for a repetition (R65). -/
theorem runRepeats_eq_false (p : List Byte) : runRepeats p = false ↔ runOnce p := by
  simp [runRepeats, runOnce, List.count, and_assoc]

/-- No REX byte is a legacy prefix byte (R64, R66). -/
theorem isLegacyPrefix_rex {b : Byte} (h : b.extractLsb' 4 4 = 4#4) : isLegacyPrefix b = false := by
  revert b; decide

/-- Behind a run and a REX prefix that are not refused, the decoder goes on with the byte after them (R88). -/
theorem decode_head {mode64 : Bool} {p : List Byte} {rex : Option Byte} (h : headOk mode64 p rex) {b : Byte}
    (hb : rex = none → isLegacyPrefix b = false ∧ (mode64 = true → b.extractLsb' 4 4 ≠ 4#4)) (rest : List Byte) :
    decode mode64 (p ++ rex.toList ++ b :: rest) =
      decodeOpcode mode64 (p ++ rex.toList ++ b :: rest).length p rex b rest := by
  obtain ⟨hp, hr, h64, h65, h67, hx⟩ := h
  have hrep := (runRepeats_eq_false p).2 hr
  have hfs : runHasFsGs p = false := by simp [runHasFsGs, h64, h65]
  have h16 : (p.contains 0x67#8 && !mode64) = false := by
    by_cases hm : 0x67#8 ∈ p
    · simp [h67 hm]
    · simp [hm]
  cases rex with
  | none =>
    obtain ⟨h1, h2⟩ := hb rfl
    have hrx : (mode64 && isRex b) = false := by
      cases mode64
      · rfl
      · simpa [isRex, field] using h2 rfl
    simp only [Option.toList_none, List.append_nil, decode, splitRun_run hp h1, hrep, hfs, h16, hrx]
    rfl
  | some r =>
    simp only [Option.all_some, Bool.and_eq_true, decide_eq_true_eq] at hx
    have hrx : (mode64 && isRex r) = true := by simp [isRex, field, hx.1, hx.2]
    simp only [Option.toList_some, List.append_assoc, List.singleton_append, decode,
      splitRun_run hp (isLegacyPrefix_rex hx.2), hrep, hfs, h16, hrx]
    rfl
end Sys2Proof
end

