-- ==== Sys2Proof/Laws/State.lean ====
section
/-! SUPPORT. One lemma per field per update of State, and what a register reads after a write. -/

namespace Sys2Proof.Machine

@[simp] theorem writeVec_pc (s : State) (i : Fin 32) (v : VWord) : (writeVec s i v).pc = s.pc := rfl
@[simp] theorem writeVec_mm (s : State) (i : Fin 32) (v : VWord) : (writeVec s i v).mm = s.mm := rfl
@[simp] theorem writeVec_vec (s : State) (i : Fin 32) (v : VWord) : (writeVec s i v).vec = s.vec.set i v := rfl
@[simp] theorem writeVec_k (s : State) (i : Fin 32) (v : VWord) : (writeVec s i v).k = s.k := rfl
@[simp] theorem writeVec_g (s : State) (i : Fin 32) (v : VWord) : (writeVec s i v).g = s.g := rfl
@[simp] theorem writeVec_x87Hi (s : State) (i : Fin 32) (v : VWord) : (writeVec s i v).x87Hi = s.x87Hi := rfl
@[simp] theorem writeVec_x87Tag (s : State) (i : Fin 32) (v : VWord) : (writeVec s i v).x87Tag = s.x87Tag := rfl
@[simp] theorem writeVec_x87Top (s : State) (i : Fin 32) (v : VWord) : (writeVec s i v).x87Top = s.x87Top := rfl
@[simp] theorem writeVec_mem (s : State) (i : Fin 32) (v : VWord) : (writeVec s i v).mem = s.mem := rfl
@[simp] theorem writeVec_mark (s : State) (i : Fin 32) (v : VWord) : (writeVec s i v).mark = s.mark := rfl
@[simp] theorem writeVec_cfg (s : State) (i : Fin 32) (v : VWord) : (writeVec s i v).cfg = s.cfg := rfl

@[simp] theorem writeVec16_pc (s : State) (i : Fin 16) (v : VWord) : (writeVec16 s i v).pc = s.pc := rfl
@[simp] theorem writeVec16_mm (s : State) (i : Fin 16) (v : VWord) : (writeVec16 s i v).mm = s.mm := rfl
@[simp] theorem writeVec16_vec (s : State) (i : Fin 16) (v : VWord) : (writeVec16 s i v).vec = s.vec.set (i.castLE (by decide : 16 ≤ 32)) v := rfl
@[simp] theorem writeVec16_k (s : State) (i : Fin 16) (v : VWord) : (writeVec16 s i v).k = s.k := rfl
@[simp] theorem writeVec16_g (s : State) (i : Fin 16) (v : VWord) : (writeVec16 s i v).g = s.g := rfl
@[simp] theorem writeVec16_x87Hi (s : State) (i : Fin 16) (v : VWord) : (writeVec16 s i v).x87Hi = s.x87Hi := rfl
@[simp] theorem writeVec16_x87Tag (s : State) (i : Fin 16) (v : VWord) : (writeVec16 s i v).x87Tag = s.x87Tag := rfl
@[simp] theorem writeVec16_x87Top (s : State) (i : Fin 16) (v : VWord) : (writeVec16 s i v).x87Top = s.x87Top := rfl
@[simp] theorem writeVec16_mem (s : State) (i : Fin 16) (v : VWord) : (writeVec16 s i v).mem = s.mem := rfl
@[simp] theorem writeVec16_mark (s : State) (i : Fin 16) (v : VWord) : (writeVec16 s i v).mark = s.mark := rfl
@[simp] theorem writeVec16_cfg (s : State) (i : Fin 16) (v : VWord) : (writeVec16 s i v).cfg = s.cfg := rfl

@[simp] theorem enterMmx_pc (s : State) : (enterMmx s).pc = s.pc := rfl
@[simp] theorem enterMmx_mm (s : State) : (enterMmx s).mm = s.mm := rfl
@[simp] theorem enterMmx_vec (s : State) : (enterMmx s).vec = s.vec := rfl
@[simp] theorem enterMmx_k (s : State) : (enterMmx s).k = s.k := rfl
@[simp] theorem enterMmx_g (s : State) : (enterMmx s).g = s.g := rfl
@[simp] theorem enterMmx_x87Hi (s : State) : (enterMmx s).x87Hi = s.x87Hi := rfl
@[simp] theorem enterMmx_x87Tag (s : State) : (enterMmx s).x87Tag = 0#16 := rfl
@[simp] theorem enterMmx_x87Top (s : State) : (enterMmx s).x87Top = 0#3 := rfl
@[simp] theorem enterMmx_mem (s : State) : (enterMmx s).mem = s.mem := rfl
@[simp] theorem enterMmx_mark (s : State) : (enterMmx s).mark = s.mark := rfl
@[simp] theorem enterMmx_cfg (s : State) : (enterMmx s).cfg = s.cfg := rfl

@[simp] theorem writeMm_pc (s : State) (i : Fin 8) (v : QWord) : (writeMm s i v).pc = s.pc := rfl
@[simp] theorem writeMm_mm (s : State) (i : Fin 8) (v : QWord) : (writeMm s i v).mm = s.mm.set i v := rfl
@[simp] theorem writeMm_vec (s : State) (i : Fin 8) (v : QWord) : (writeMm s i v).vec = s.vec := rfl
@[simp] theorem writeMm_k (s : State) (i : Fin 8) (v : QWord) : (writeMm s i v).k = s.k := rfl
@[simp] theorem writeMm_g (s : State) (i : Fin 8) (v : QWord) : (writeMm s i v).g = s.g := rfl
@[simp] theorem writeMm_x87Hi (s : State) (i : Fin 8) (v : QWord) : (writeMm s i v).x87Hi = s.x87Hi.set i 0xFFFF#16 := rfl
@[simp] theorem writeMm_x87Tag (s : State) (i : Fin 8) (v : QWord) : (writeMm s i v).x87Tag = 0#16 := rfl
@[simp] theorem writeMm_x87Top (s : State) (i : Fin 8) (v : QWord) : (writeMm s i v).x87Top = 0#3 := rfl
@[simp] theorem writeMm_mem (s : State) (i : Fin 8) (v : QWord) : (writeMm s i v).mem = s.mem := rfl
@[simp] theorem writeMm_mark (s : State) (i : Fin 8) (v : QWord) : (writeMm s i v).mark = s.mark := rfl
@[simp] theorem writeMm_cfg (s : State) (i : Fin 8) (v : QWord) : (writeMm s i v).cfg = s.cfg := rfl

@[simp] theorem advancePc_pc (len : Nat) (s : State) : (advancePc len s).pc = s.pc + BitVec.ofNat 64 len := rfl
@[simp] theorem advancePc_mm (len : Nat) (s : State) : (advancePc len s).mm = s.mm := rfl
@[simp] theorem advancePc_vec (len : Nat) (s : State) : (advancePc len s).vec = s.vec := rfl
@[simp] theorem advancePc_k (len : Nat) (s : State) : (advancePc len s).k = s.k := rfl
@[simp] theorem advancePc_g (len : Nat) (s : State) : (advancePc len s).g = s.g := rfl
@[simp] theorem advancePc_x87Hi (len : Nat) (s : State) : (advancePc len s).x87Hi = s.x87Hi := rfl
@[simp] theorem advancePc_x87Tag (len : Nat) (s : State) : (advancePc len s).x87Tag = s.x87Tag := rfl
@[simp] theorem advancePc_x87Top (len : Nat) (s : State) : (advancePc len s).x87Top = s.x87Top := rfl
@[simp] theorem advancePc_mem (len : Nat) (s : State) : (advancePc len s).mem = s.mem := rfl
@[simp] theorem advancePc_mark (len : Nat) (s : State) : (advancePc len s).mark = s.mark := rfl
@[simp] theorem advancePc_cfg (len : Nat) (s : State) : (advancePc len s).cfg = s.cfg := rfl

@[simp] theorem markWith_pc (s : State) (m : Mark) : (markWith s m).pc = s.pc := rfl
@[simp] theorem markWith_mm (s : State) (m : Mark) : (markWith s m).mm = s.mm := rfl
@[simp] theorem markWith_vec (s : State) (m : Mark) : (markWith s m).vec = s.vec := rfl
@[simp] theorem markWith_k (s : State) (m : Mark) : (markWith s m).k = s.k := rfl
@[simp] theorem markWith_g (s : State) (m : Mark) : (markWith s m).g = s.g := rfl
@[simp] theorem markWith_x87Hi (s : State) (m : Mark) : (markWith s m).x87Hi = s.x87Hi := rfl
@[simp] theorem markWith_x87Tag (s : State) (m : Mark) : (markWith s m).x87Tag = s.x87Tag := rfl
@[simp] theorem markWith_x87Top (s : State) (m : Mark) : (markWith s m).x87Top = s.x87Top := rfl
@[simp] theorem markWith_mem (s : State) (m : Mark) : (markWith s m).mem = s.mem := rfl
@[simp] theorem markWith_mark (s : State) (m : Mark) : (markWith s m).mark = m := rfl
@[simp] theorem markWith_cfg (s : State) (m : Mark) : (markWith s m).cfg = s.cfg := rfl

@[simp] theorem withFetchWord_pc (s : State) (nbits w : Nat) : (s.withFetchWord nbits w).pc = s.pc := rfl
@[simp] theorem withFetchWord_mm (s : State) (nbits w : Nat) : (s.withFetchWord nbits w).mm = s.mm := rfl
@[simp] theorem withFetchWord_vec (s : State) (nbits w : Nat) : (s.withFetchWord nbits w).vec = s.vec := rfl
@[simp] theorem withFetchWord_k (s : State) (nbits w : Nat) : (s.withFetchWord nbits w).k = s.k := rfl
@[simp] theorem withFetchWord_g (s : State) (nbits w : Nat) : (s.withFetchWord nbits w).g = s.g := rfl
@[simp] theorem withFetchWord_x87Hi (s : State) (nbits w : Nat) : (s.withFetchWord nbits w).x87Hi = s.x87Hi := rfl
@[simp] theorem withFetchWord_x87Tag (s : State) (nbits w : Nat) : (s.withFetchWord nbits w).x87Tag = s.x87Tag := rfl
@[simp] theorem withFetchWord_x87Top (s : State) (nbits w : Nat) : (s.withFetchWord nbits w).x87Top = s.x87Top := rfl
@[simp] theorem withFetchWord_mem (s : State) (nbits w : Nat) : (s.withFetchWord nbits w).mem = s.mem.putBytes s.pc.toNat (tableBytes nbits w) := rfl
@[simp] theorem withFetchWord_mark (s : State) (nbits w : Nat) : (s.withFetchWord nbits w).mark = s.mark := rfl
@[simp] theorem withFetchWord_cfg (s : State) (nbits w : Nat) : (s.withFetchWord nbits w).cfg = s.cfg := rfl

@[simp] theorem readVec_advancePc (len : Nat) (s : State) (i : Fin 32) : readVec (advancePc len s) i = readVec s i := rfl
@[simp] theorem readMm_advancePc (len : Nat) (s : State) (i : Fin 8) : readMm (advancePc len s) i = readMm s i := rfl
@[simp] theorem readMm_writeVec (s : State) (i : Fin 32) (v : VWord) (j : Fin 8) : readMm (writeVec s i v) j = readMm s j := rfl
@[simp] theorem readVec_writeMm (s : State) (i : Fin 8) (v : QWord) (j : Fin 32) : readVec (writeMm s i v) j = readVec s j := rfl

/-- A vector register written reads back; every other one keeps its value. -/
theorem readVec_writeVec (s : State) (i j : Fin 32) (v : VWord) :
    readVec (writeVec s i v) j = if i = j then v else readVec s j := by
  simp only [readVec, writeVec, Vector.get_eq_getElem, Vector.getElem_set]
  by_cases h : i = j
  · simp [h]
  · simp [h, Fin.val_ne_of_ne h]

@[simp] theorem readVec_writeVec_self (s : State) (i : Fin 32) (v : VWord) : readVec (writeVec s i v) i = v := by
  simp [readVec_writeVec]

/-- An MMX register written reads back; every other one keeps its value. -/
theorem readMm_writeMm (s : State) (i j : Fin 8) (v : QWord) :
    readMm (writeMm s i v) j = if i = j then v.setWidth 512 else readMm s j := by
  simp only [readMm, writeMm_mm, Vector.get_eq_getElem, Vector.getElem_set]
  by_cases h : i = j
  · simp [h]
  · simp [h, Fin.val_ne_of_ne h]

end Sys2Proof.Machine
end

