-- ==== Sys2Proof/Laws/Ops.lean ====
section
/-! SUPPORT. What the shared operations can answer: cite these instead of unfolding them. -/

namespace Sys2Proof.Machine

/-- When an access is admitted (R41). -/
theorem admits_iff (c : Config) (kind : AccessKind) (a n : Nat) :
    admits c kind a n = true ↔ inSpace c a n = true ∧
      ∃ g ∈ c.grants, g.kind = kind ∧ g.size = n ∧ g.first ≤ a ∧ a < g.first + g.count := by
  simp [admits, grantCovers, and_assoc]

/-- A form has no entry fault exactly when its premises hold. -/
theorem entryFault_eq_none (f : Form) (s : State) : entryFault f s = none ↔ formReady f s = true := by
  unfold entryFault formReady
  cases formSupported s.cfg f <;> cases s.cfg.os.on f <;> cases s.cfg.tsClear <;>
    cases (decide (f = .mmx) && s.cfg.x87Pending) <;> simp

/-- An entry fault is `UD`, `NM` or, for form MMX, `MF`; it records pc. -/
theorem entryFault_eq_some {f : Form} {s : State} {e : Fault} (h : entryFault f s = some e) :
    e = .ud s.pc ∨ e = .nm s.pc ∨ (f = .mmx ∧ e = .mf s.pc) := by
  unfold entryFault at h
  split at h
  · simp_all
  · split at h
    · simp_all
    · split at h
      · simp_all
      · split at h <;> simp_all

/-- Reading a memory operand succeeds exactly when its premises hold, and then gives the bytes there. -/
theorem loadOperand_eq_ok (f : Form) (a : QWord) (s : State) (v : VWord) :
    loadOperand f a s = .ok v ↔ operandReady f a s = true ∧ v = memRead s a (formBytes f) := by
  unfold loadOperand operandReady
  generalize formBytes f = n
  generalize memRead s a n = x
  generalize s.cfg.acOff = ac
  generalize admits s.cfg .read a.toNat n = ad
  by_cases h1 : f = .sse <;> by_cases h2 : a.toNat % 16 = 0 <;> by_cases h4 : a.toNat % n = 0 <;>
    cases ac <;> cases ad <;> simp [h1, h2, h4, eq_comm]

/-- A memory operand that cannot be read gives one of the two data faults, which record pc, address and size. -/
theorem loadOperand_eq_error {f : Form} {a : QWord} {s : State} {e : Fault} (h : loadOperand f a s = .error e) :
    (f = .sse ∧ e = .gpAlign s.pc a (formBytes f)) ∨ e = .memFault s.pc a (formBytes f) := by
  unfold loadOperand at h
  split at h
  · simp_all
  · split at h
    · simp_all
    · split at h <;> simp_all

/-- Everything that completing an instruction can answer. -/
theorem complete_cases (f : Form) (len : Nat) (src : Except Fault VWord) (write : VWord → State) (s : State) :
    (inSpace s.cfg (s.pc.toNat + len) 1 = false ∧ complete f len src write s = .refused .pcRange) ∨
    (inSpace s.cfg (s.pc.toNat + len) 1 = true ∧
      ((∃ e, entryFault f s = some e ∧ complete f len src write s = .fault e) ∨
       (entryFault f s = none ∧
        ((∃ e, src = .error e ∧ complete f len src write s = .fault e) ∨
         (∃ v, src = .ok v ∧ complete f len src write s = .next (advancePc len (write v))))))) := by
  unfold complete raise
  cases inSpace s.cfg (s.pc.toNat + len) 1
  · simp
  · cases entryFault f s with
    | some e => simp
    | none => cases src <;> simp

/-- Completing an instruction answers a next state exactly when nothing stops it, and then that state. -/
theorem complete_eq_next (f : Form) (len : Nat) (src : Except Fault VWord) (write : VWord → State) (s t : State) :
    complete f len src write s = .next t ↔
      inSpace s.cfg (s.pc.toNat + len) 1 = true ∧ formReady f s = true ∧
        ∃ v, src = .ok v ∧ t = advancePc len (write v) := by
  rw [← entryFault_eq_none]
  unfold complete raise
  cases inSpace s.cfg (s.pc.toNat + len) 1
  · simp
  · cases entryFault f s with
    | some e => simp
    | none => cases src <;> simp [eq_comm]

/-- Where the successor is inside the address range, pc advances without wrapping. -/
theorem advancePc_toNat (len : Nat) (s : State) (h : inSpace s.cfg (s.pc.toNat + len) 1 = true) :
    (advancePc len s).pc.toNat = s.pc.toNat + len := by
  have hlt : s.pc.toNat + len < 2 ^ 64 := by
    unfold inSpace canonicalBits at h
    split at h
    · split at h <;> simp at h <;> omega
    · simp at h; omega
  simp only [advancePc_pc, BitVec.toNat_add, BitVec.toNat_ofNat]
  omega

end Sys2Proof.Machine
end

