-- ==== Sys2Proof/Laws/Exec.lean ====
section
/-! SUPPORT. Every instruction is `complete` over its operand and one register write: what that operand is, and what
the write leaves alone. -/

namespace Sys2Proof.Machine

/-- `ready` part by part. -/
theorem ready_iff (i : Instr) (s : State) :
    ready i s = true ↔
      inSpace s.cfg (s.pc.toNat + i.len) 1 = true ∧ formReady i.form s = true ∧
        ∀ m, i.memOperand = some m → operandReady i.form (effAddr m i.len s) s = true := by
  unfold ready
  cases i.memOperand <;> simp [and_assoc]

/-- Where a memory operand's premises hold the operand of ModRM:r/m has its value. -/
theorem operand_eq_rmValue {n : Nat} (f : Form) (len : Nat) (rd : Fin n → VWord) (s : State) (rm : RM n)
    (h : ∀ m, rm = .mem m → operandReady f (effAddr m len s) s = true) :
    operand f len rd s rm = .ok (rmValue f len rd s rm) := by
  cases rm with
  | reg r => rfl
  | mem m => exact (loadOperand_eq_ok _ _ _ _).2 ⟨h m rfl, rfl⟩

/-- What a meaning's write leaves alone, whatever the operand's value: everything but one register file (and, for
form MMX, x87 state). -/
def WriteKeeps (s t : State) : Prop :=
  t.pc = s.pc ∧ t.k = s.k ∧ t.g = s.g ∧ t.mem = s.mem ∧ t.mark = s.mark ∧ t.cfg = s.cfg

/-- The one shape of every meaning. -/
theorem exec_shape (i : Instr) (s : State) :
    ∃ (src : Except Fault VWord) (write : VWord → State),
      exec i s = complete i.form i.len src write s ∧
      (i.memOperand = none → ∃ v, src = .ok v) ∧
      (∀ m, i.memOperand = some m → src = loadOperand i.form (effAddr m i.len s) s) ∧
      ∀ v, WriteKeeps s (write v) := by
  cases i with
  | pmaddwdMmx d rm len => exact ⟨_, _, rfl, by cases rm <;> simp [Instr.memOperand, operand],
      by cases rm <;> simp [Instr.memOperand, operand, Instr.form, Instr.len], fun v => ⟨rfl, rfl, rfl, rfl, rfl, rfl⟩⟩
  | pmaddwdSse d rm len => exact ⟨_, _, rfl, by cases rm <;> simp [Instr.memOperand, operand],
      by cases rm <;> simp [Instr.memOperand, operand, Instr.form, Instr.len], fun v => ⟨rfl, rfl, rfl, rfl, rfl, rfl⟩⟩
  | vpmaddwdVex128 d s1 rm len => exact ⟨_, _, rfl, by cases rm <;> simp [Instr.memOperand, operand],
      by cases rm <;> simp [Instr.memOperand, operand, Instr.form, Instr.len], fun v => ⟨rfl, rfl, rfl, rfl, rfl, rfl⟩⟩
  | vpmaddwdVex256 d s1 rm len => exact ⟨_, _, rfl, by cases rm <;> simp [Instr.memOperand, operand],
      by cases rm <;> simp [Instr.memOperand, operand, Instr.form, Instr.len], fun v => ⟨rfl, rfl, rfl, rfl, rfl, rfl⟩⟩
  | vpmaddwdEvex128 d s1 rm k z len => exact ⟨_, _, rfl, by cases rm <;> simp [Instr.memOperand, operand],
      by cases rm <;> simp [Instr.memOperand, operand, Instr.form, Instr.len], fun v => ⟨rfl, rfl, rfl, rfl, rfl, rfl⟩⟩
  | vpmaddwdEvex256 d s1 rm k z len => exact ⟨_, _, rfl, by cases rm <;> simp [Instr.memOperand, operand],
      by cases rm <;> simp [Instr.memOperand, operand, Instr.form, Instr.len], fun v => ⟨rfl, rfl, rfl, rfl, rfl, rfl⟩⟩
  | vpmaddwdEvex512 d s1 rm k z len => exact ⟨_, _, rfl, by cases rm <;> simp [Instr.memOperand, operand],
      by cases rm <;> simp [Instr.memOperand, operand, Instr.form, Instr.len], fun v => ⟨rfl, rfl, rfl, rfl, rfl, rfl⟩⟩

/-- A step that answers a next state ran an instruction decoded from the bytes at pc, in an unmarked state. -/
theorem step_eq_next {s t : State} (h : step s = .next t) :
    s.mark = .clear ∧ ∃ i, decode s.cfg.mode64 (bytesAtPc s) = .instr i ∧ exec i s = .next t := by
  unfold step at h
  cases hm : s.mark with
  | faulted f => simp [hm] at h
  | refused r => simp [hm] at h
  | clear =>
    simp only [hm] at h
    refine ⟨rfl, ?_⟩
    unfold fetchDecode at h
    cases hd : decode s.cfg.mode64 (bytesAtPc s) with
    | instr i => simp only [hd] at h; exact ⟨i, rfl, h⟩
    | ud => simp [hd, raise] at h
    | refused r => simp [hd] at h
    | short =>
      simp only [hd] at h
      by_cases hs : inSpace s.cfg (s.pc.toNat + (bytesAtPc s).length) 1 = true <;> simp [hs, raise] at h

/-- What an instruction that completes has in common with every other: it was ready, and only a register, x87 state
and pc can differ. -/
theorem exec_eq_next {i : Instr} {s t : State} (h : exec i s = .next t) :
    inSpace s.cfg (s.pc.toNat + i.len) 1 = true ∧ formReady i.form s = true ∧
    t.pc = s.pc + BitVec.ofNat 64 i.len ∧ t.pc.toNat = s.pc.toNat + i.len ∧
    t.k = s.k ∧ t.g = s.g ∧ t.mem = s.mem ∧ t.mark = s.mark ∧ t.cfg = s.cfg := by
  obtain ⟨src, write, he, -, -, hw⟩ := exec_shape i s
  rw [he, complete_eq_next] at h
  obtain ⟨h1, h2, v, -, rfl⟩ := h
  obtain ⟨w1, w2, w3, w4, w5, w6⟩ := hw v
  have hpc : (advancePc i.len (write v)).pc = s.pc + BitVec.ofNat 64 i.len := by rw [advancePc_pc, w1]
  refine ⟨h1, h2, hpc, ?_, by simpa using w2, by simpa using w3, by simpa using w4, by simpa using w5, by simpa using w6⟩
  rw [hpc, ← advancePc_pc, advancePc_toNat _ _ h1]

end Sys2Proof.Machine
end

