-- ==== Sys2Proof/Laws/Fetch.lean ====
section
/-! SUPPORT. What fetching gives: the bytes at an address as far as they can be fetched, and how many of them can differ
from 00H (spec/60_exceptions.md R142). -/

namespace Sys2Proof.Machine

/-- Bytes that can be fetched are the head of what is fetched. -/
theorem fetchBytes_append (s : State) (bs : List Byte) (n a : Nat)
    (h : ∀ j (hj : j < bs.length), canFetch s.cfg (a + j) = true ∧ s.mem.byteAt (a + j) = bs[j]) :
    fetchBytes s (bs.length + n) a = bs ++ fetchBytes s n (a + bs.length) := by
  induction bs generalizing a with
  | nil => simp
  | cons b bs ih =>
    have h0 := h 0 (by simp)
    simp only [Nat.add_zero, List.getElem_cons_zero] at h0
    rw [List.length_cons, Nat.add_right_comm, fetchBytes, if_pos h0.1, h0.2, List.cons_append,
      ih (a + 1) fun j hj => by have := h (j + 1) (by simpa using hj); simpa [Nat.add_assoc, Nat.add_comm 1] using this,
      show a + 1 + bs.length = a + (bs.length + 1) by omega]

/-- Nothing is fetched from an address that cannot be fetched. -/
theorem fetchBytes_stop (s : State) (n a : Nat) (h : canFetch s.cfg a = false) : fetchBytes s n a = [] := by
  cases n <;> simp [fetchBytes, h]

/-- A byte other than 00H is listed. -/
theorem Memory.byteAt_listed (m : Memory) (a : Nat) (h : m.byteAt a ≠ 0#8) : a ∈ m.map Prod.fst := by
  induction m with
  | nil => simp [Memory.byteAt, unlistedByte] at h
  | cons c m ih =>
    simp only [Memory.byteAt] at h
    split at h
    · rename_i e; simp [e]
    · exact List.mem_cons_of_mem _ (ih h)

/-- Memory lists at least as many addresses as it has consecutive bytes other than 00H. -/
theorem Memory.nonzero_length_le (m : Memory) (bs : List Byte) (a : Nat) (h : ∀ j (hj : j < bs.length), m.byteAt (a + j) = bs[j])
   (hn : ∀ b ∈ bs, b ≠ 0#8) : bs.length ≤ m.length := by
  have : (List.range' a bs.length) ⊆ m.map Prod.fst := by
    intro x hx
    simp only [List.mem_range'_1] at hx
    obtain ⟨j, rfl⟩ := Nat.exists_eq_add_of_le hx.1
    exact Memory.byteAt_listed _ _ (by rw [h j (by omega)]; exact hn _ (List.getElem_mem _))
  have := (List.nodup_range' (s:=a) (n:=bs.length) (step:=1)).subperm this |>.length_le
  simpa using this

end Sys2Proof.Machine
end

