-- ==== Sys2Proof/Laws/Memory.lean ====
section
/-! SUPPORT. Memory's canonical form, and what a byte reads as after one is laid down. -/

namespace Sys2Proof.Machine

theorem Memory.mem_of_mem_place (m : Memory) (a : Nat) (b : Byte) (c : Host.Cell) (h : c ∈ m.place a b) :
    c = (a, b) ∧ b ≠ unlistedByte ∨ c ∈ m := by
  induction m with
  | nil =>
    by_cases hb : b = unlistedByte <;> simp_all [Memory.place]
  | cons d m ih =>
    simp only [Memory.place] at h
    split at h
    · split at h <;> simp_all
    · split at h
      · split at h
        · exact .inr (by simp [h])
        · rcases List.mem_cons.1 h with h | h
          · exact .inl ⟨h, ‹_›⟩
          · exact .inr (by simp [h])
      · rcases List.mem_cons.1 h with h | h
        · exact .inr (by simp [h])
        · rcases ih h with h | h
          · exact .inl h
          · exact .inr (by simp [h])

theorem Memory.place_wf (m : Memory) (a : Nat) (b : Byte) (ha : a < 2 ^ 64) (h : m.wf) : (m.place a b).wf := by
  induction m with
  | nil => by_cases hb : b = unlistedByte <;> simp_all [Memory.place, Memory.wf]
  | cons d m ih =>
    obtain ⟨hp, hm⟩ := h
    obtain ⟨hd, hp⟩ := List.pairwise_cons.1 hp
    have tail : Memory.wf m := ⟨hp, fun c hc => hm c (by simp [hc])⟩
    have full : Memory.wf (d :: m) := ⟨List.pairwise_cons.2 ⟨hd, hp⟩, hm⟩
    simp only [Memory.place]
    split
    · rename_i hlt
      split
      · exact full
      · rename_i hb
        refine ⟨List.pairwise_cons.2 ⟨?_, full.1⟩, ?_⟩
        · intro c hc
          rcases List.mem_cons.1 hc with rfl | hc
          · exact hlt
          · exact Nat.lt_trans hlt (hd c hc)
        · intro c hc
          rcases List.mem_cons.1 hc with rfl | hc
          · exact ⟨ha, hb⟩
          · exact hm c hc
    · split
      · rename_i heq
        split
        · exact tail
        · rename_i hb
          refine ⟨List.pairwise_cons.2 ⟨fun c hc => heq ▸ hd c hc, hp⟩, ?_⟩
          intro c hc
          rcases List.mem_cons.1 hc with rfl | hc
          · exact ⟨ha, hb⟩
          · exact hm c (by simp [hc])
      · rename_i hge hne
        have hi := ih tail
        refine ⟨List.pairwise_cons.2 ⟨?_, hi.1⟩, ?_⟩
        · intro c hc
          rcases Memory.mem_of_mem_place m a b c hc with ⟨rfl, -⟩ | hc
          · simp only; omega
          · exact hd c hc
        · intro c hc
          rcases List.mem_cons.1 hc with rfl | hc
          · exact hm c (by simp)
          · exact hi.2 c hc

/-- Laying a byte down keeps the canonical form. -/
theorem Memory.put_wf (m : Memory) (a : Nat) (b : Byte) (h : m.wf) : (m.put a b).wf := by
  unfold Memory.put
  split
  · exact Memory.place_wf m a b ‹_› h
  · exact h

/-- Laying bytes down keeps the canonical form. -/
theorem Memory.putBytes_wf (m : Memory) (a : Nat) (bs : List Byte) (h : m.wf) : (m.putBytes a bs).wf := by
  induction bs generalizing m a with
  | nil => exact h
  | cons b bs ih => exact ih _ _ (Memory.put_wf m a b h)

/-- An address below every listed one reads as an unlisted address does. -/
theorem Memory.byteAt_below (m : Memory) (a : Nat) (h : ∀ c ∈ m, a < c.1) : m.byteAt a = unlistedByte := by
  induction m with
  | nil => rfl
  | cons c m ih =>
    have hc := h c (by simp)
    simp only [Memory.byteAt, show ¬ c.1 = a by omega, if_false]
    exact ih fun d hd => h d (by simp [hd])

/-- The byte laid down is read back, and every other address reads as before. -/
theorem Memory.byteAt_place (m : Memory) (a x : Nat) (b : Byte) (h : m.wf) :
    (m.place a b).byteAt x = if x = a then b else m.byteAt x := by
  induction m with
  | nil =>
    by_cases hb : b = unlistedByte <;> by_cases hx : x = a <;>
      simp_all [Memory.place, Memory.byteAt, eq_comm]
  | cons d m ih =>
    obtain ⟨hp, hm⟩ := h
    obtain ⟨hd, hp⟩ := List.pairwise_cons.1 hp
    have tail : Memory.wf m := ⟨hp, fun c hc => hm c (by simp [hc])⟩
    have ih := ih tail
    have low : ∀ y, y ≤ d.1 → Memory.byteAt m y = unlistedByte := fun y hy =>
      Memory.byteAt_below m y fun c hc => Nat.lt_of_le_of_lt hy (hd c hc)
    simp only [Memory.place]
    split
    · split
      · by_cases hx : x = a
        · subst hx
          have := low x (by omega)
          simp_all [Memory.byteAt, show ¬ d.1 = x by omega]
        · simp [hx]
      · by_cases hx : x = a
        · simp [Memory.byteAt, hx]
        · simp [Memory.byteAt, hx, show ¬ a = x from fun e => hx e.symm]
    · split
      · split
        · by_cases hx : x = a
          · subst hx
            have := low x (by omega)
            simp_all
          · simp [Memory.byteAt, hx, show ¬ d.1 = x by omega]
        · by_cases hx : x = a
          · simp [Memory.byteAt, hx]
          · simp [Memory.byteAt, hx, show ¬ a = x from fun e => hx e.symm, show ¬ d.1 = x by omega]
      · by_cases hx : x = a
        · subst hx
          simp [Memory.byteAt, ih, show ¬ d.1 = x by omega]
        · simp [Memory.byteAt, ih, hx]

theorem State.reset_mem_wf : State.reset.mem.wf := by simp [State.reset, Memory.wf]

end Sys2Proof.Machine
end

