-- ==== Sys2Proof/Laws/PerInstr.lean ====
section
/-! SUPPORT. Statements about every instruction as a term, one lemma per constructor. -/

namespace Sys2Proof.Laws.LengthBounds

/-- A well-formed instruction is as long as encodings of its form are, and so 3 to 13 bytes
(spec/30_encoding.md R90), in every mode. -/
def Statement (i : Instr) : Prop :=
  ∀ mode64 n, i.wf mode64 n = true → i.form.minLen ≤ i.len ∧ i.len ≤ i.form.maxLen ∧ 3 ≤ i.len ∧ i.len ≤ 13

theorem of_lenOk (f : Form) (len : Nat) (h : lenOk f len = true) :
    f.minLen ≤ len ∧ len ≤ f.maxLen ∧ 3 ≤ len ∧ len ≤ 13 := by
  obtain ⟨lo, hi⟩ := of_decide_eq_true h
  cases f <;> simp only [Form.minLen, Form.maxLen] at lo hi ⊢ <;> omega

theorem lenOk_of_wf (i : Instr) (m : Bool) (n : Nat) (h : i.wf m n = true) : lenOk i.form i.len = true := by
  unfold Instr.wf at h
  exact (Bool.and_eq_true_iff.1 h).1

theorem pmaddwdMmx (dst : Fin 8) (src : RM 8) (len : Nat) :
    Statement (.pmaddwdMmx dst src len) :=
  fun m n h => of_lenOk _ _ (lenOk_of_wf _ m n h)

theorem pmaddwdSse (dst : Fin 16) (src : RM 16) (len : Nat) :
    Statement (.pmaddwdSse dst src len) :=
  fun m n h => of_lenOk _ _ (lenOk_of_wf _ m n h)

theorem vpmaddwdVex128 (dst s1 : Fin 16) (s2 : RM 16) (len : Nat) :
    Statement (.vpmaddwdVex128 dst s1 s2 len) :=
  fun m n h => of_lenOk _ _ (lenOk_of_wf _ m n h)

theorem vpmaddwdVex256 (dst s1 : Fin 16) (s2 : RM 16) (len : Nat) :
    Statement (.vpmaddwdVex256 dst s1 s2 len) :=
  fun m n h => of_lenOk _ _ (lenOk_of_wf _ m n h)

theorem vpmaddwdEvex128 (dst s1 : Fin 32) (s2 : RM 32) (k : Fin 8) (z : Bool) (len : Nat) :
    Statement (.vpmaddwdEvex128 dst s1 s2 k z len) :=
  fun m n h => of_lenOk _ _ (lenOk_of_wf _ m n h)

theorem vpmaddwdEvex256 (dst s1 : Fin 32) (s2 : RM 32) (k : Fin 8) (z : Bool) (len : Nat) :
    Statement (.vpmaddwdEvex256 dst s1 s2 k z len) :=
  fun m n h => of_lenOk _ _ (lenOk_of_wf _ m n h)

theorem vpmaddwdEvex512 (dst s1 : Fin 32) (s2 : RM 32) (k : Fin 8) (z : Bool) (len : Nat) :
    Statement (.vpmaddwdEvex512 dst s1 s2 k z len) :=
  fun m n h => of_lenOk _ _ (lenOk_of_wf _ m n h)

end Sys2Proof.Laws.LengthBounds
end

