-- ==== Sys2Proof/Laws/View.lean ====
section
/-! SUPPORT. The statements' view of a vector (words and doublewords, Safety.lean) against the model's lanes. -/

namespace Sys2Proof.Machine

theorem dwordOf_eq_lane (v : VWord) (j : Nat) : dwordOf v j = lane v j := rfl

/-- A doubleword's low and high words are words 2j and 2j+1 of the vector (R9). -/
theorem extract_lane (v : VWord) (j c : Nat) (hc : c + 16 ≤ 32) :
    (lane v j).extractLsb' c 16 = v.extractLsb' (32 * j + c) 16 := by
  apply BitVec.eq_of_getLsbD_eq
  intro i hi
  simp only [lane, BitVec.getLsbD_extractLsb', hi, decide_true, Bool.true_and, show c + i < 32 by omega]
  rw [Nat.add_assoc]

theorem lowWord_lane (v : VWord) (j : Nat) : lowWord (lane v j) = wordOf v (2 * j) := by
  unfold lowWord wordOf
  rw [extract_lane v j 0 (by omega), show 32 * j + 0 = 16 * (2 * j) by omega]

theorem highWord_lane (v : VWord) (j : Nat) : highWord (lane v j) = wordOf v (2 * j + 1) := by
  unfold highWord wordOf
  rw [extract_lane v j 16 (by omega), show 32 * j + 16 = 16 * (2 * j + 1) by omega]

/-- `madd32` of two lanes is what the source's Operation section assigns to that doubleword. -/
theorem madd32_lane (a b : VWord) (j : Nat) : madd32 (lane a j) (lane b j) = maddDword a b j := by
  simp only [madd32, pairSum, maddDword, lowWord_lane, highWord_lane]

end Sys2Proof.Machine
end

