-- ==== Sys2Proof/Machine/Names.lean ====
section
/-! DEFINITION. What the source calls the instruction: its assembler mnemonic (spec/30_encoding.md R95) and the C
intrinsics that stand for it (R97). No step depends on this file: the names have no semantics of their own. -/

namespace Sys2Proof.Machine

/-- The assembler mnemonic of a form (R95): two operands under `PMADDWD`, three under `VPMADDWD`. -/
def asmMnemonic : Form → String
  | .mmx | .sse => "PMADDWD"
  | .vex128 | .vex256 | .evex128 | .evex256 | .evex512 => "VPMADDWD"

/-- The operands force the EVEX spelling of `VPMADDWD` (R95): a register from 16 upwards, a mask, or zeroing. -/
def needsEvex (dst src1 : Fin 32) (src2 : RM 32) (k : Fin 8) (z : Bool) : Bool :=
  let high : Bool := match src2 with
    | .reg r => decide (16 ≤ r.val)
    | .mem _ => false
  decide (16 ≤ dst.val) || decide (16 ≤ src1.val) || high || decide (k ≠ 0) || z

/-- How an intrinsic masks (R97): not, by merging into its first argument, or by zeroing. -/
inductive Masking where
  | unmasked
  | merging
  | zeroing
  deriving DecidableEq, Repr

/-- A C intrinsic (R97): the width of its vectors, how it masks, and the width of its mask type (0 without one). The
mask type is wider than the mask bits that the instruction reads (spec/90_conflicts.md C4, R134). -/
structure Intrinsic where
  name : String
  bits : Nat
  masking : Masking
  maskBits : Nat
  deriving DecidableEq, Repr

/-- The source's list of intrinsics (R97). -/
def intrinsics : List Intrinsic :=
  [⟨"_mm512_madd_epi16", 512, .unmasked, 0⟩, ⟨"_mm512_mask_madd_epi16", 512, .merging, 32⟩,
   ⟨"_mm512_maskz_madd_epi16", 512, .zeroing, 32⟩, ⟨"_mm256_mask_madd_epi16", 256, .merging, 16⟩,
   ⟨"_mm256_maskz_madd_epi16", 256, .zeroing, 16⟩, ⟨"_mm_mask_madd_epi16", 128, .merging, 8⟩,
   ⟨"_mm_maskz_madd_epi16", 128, .zeroing, 8⟩, ⟨"_mm_madd_pi16", 64, .unmasked, 0⟩,
   ⟨"_mm_madd_epi16", 128, .unmasked, 0⟩, ⟨"_mm256_madd_epi16", 256, .unmasked, 0⟩]

end Sys2Proof.Machine
end

