-- ==== Sys2Proof/Tests/Slice0.lean ====
section
/-! SUPPORT. Tests. Expected values come from spec/95_test_vectors.md (V1 to V7, P1 to P4) or from a rule's own words,
as each name or comment says; the last section shows, for every statement with hypotheses, a state and operands that
meet them. -/

namespace Sys2Proof.Tests

open Sys2Proof Sys2Proof.Machine

/-! ### Helpers -/

/-- The result is a next state with the property. -/
def nextHas (r : Result) (p : State → Bool) : Bool := match r with
  | .next t => p t
  | _ => false

/-- The result is a next state. -/
def isNext (r : Result) : Bool := nextHas r fun _ => true

/-- The fault a result is, if it is one. -/
def faultOf (r : Result) : Option Fault := match r with
  | .fault f => some f
  | _ => none

/-- The refusal a result is, if it is one. -/
def refusalOf (r : Result) : Option Refusal := match r with
  | .refused f => some f
  | _ => none

/-- A launch with the given vector registers, from number 1 on, and pc = 1000H. -/
def launch (v1 v2 v3 : VWord) : State :=
  { writeVec (writeVec (writeVec State.reset 1 v1) 2 v2) 3 v3 with pc := 0x1000#64 }

/-- The state with general register `i` set. -/
def withG (s : State) (i : Fin 16) (v : QWord) : State := { s with g := s.g.set i v }

/-- The state with opmask register `i` set. -/
def withK (s : State) (i : Fin 8) (v : QWord) : State := { s with k := s.k.set i v }

/-- The state with bytes at an address. -/
def withBytes (s : State) (a : Nat) (bs : List Byte) : State := { s with mem := s.mem.putBytes a bs }

/-- The state with another configuration. -/
def withCfg (s : State) (f : Config → Config) : State := { s with cfg := f s.cfg }

/-- A memory operand `[reg + disp]` with 64-bit addresses. -/
def at64 (r : Fin 16) (d : Int) : MemExpr := ⟨some r, none, d, false, .a64⟩

/-- A 32-bit-mode launch. -/
def launch32 : State := withCfg { State.reset with pc := 0x400000#64 } fun c => { c with mode64 := false, maxvl := .v256 }

/-! ### V1: madd32 -/

theorem test_madd32_zero : madd32 0x00000000#32 0x12345678#32 = 0x00000000#32 := by decide
theorem test_madd32_cancel : madd32 0x0064FF9C#32 0x00C800C8#32 = 0x00000000#32 := by decide
theorem test_madd32_mixed : madd32 0x1234ABCD#32 0x00FF0100#32 = 0xFFBDEECC#32 := by decide
theorem test_madd32_largest_exact : madd32 0x80008000#32 0x80018000#32 = 0x7FFF8000#32 := by decide
theorem test_madd32_the_one_wrap : madd32 0x80008000#32 0x80008000#32 = 0x80000000#32 := by decide
theorem test_madd32_smallest : madd32 0x80007FFF#32 0x7FFF8000#32 = 0x80010000#32 := by decide

/-! ### V2 to V6: what each form computes -/

/-- V2.1 -/
theorem test_mmx_registers :
    nextHas (exec (.pmaddwdMmx 0 (.reg 1) 3)
      { launch 0 0 0 with mm := ((launch 0 0 0).mm.set 0 0x0004000300020001#64).set 1 0x0008000700060005#64 })
      (fun t => readMm t 0 = 0x0000003500000011#512 ∧ readMm t 1 = 0x0008000700060005#512 ∧ t.pc = 0x1003#64) = true := by
  decide +kernel

/-- V2.3 and V2.4: a misaligned memory operand, little-endian. -/
theorem test_mmx_memory :
    nextHas (exec (.pmaddwdMmx 0 (.mem (at64 7 3)) 4)
      (withBytes (withG { launch 0 0 0 with mm := (launch 0 0 0).mm.set 0 0x7FFF7FFFFFFF0003#64 } 7 0x3000#64) 0x3003
        [0x02#8, 0x00#8, 0x01#8, 0x00#8, 0xFF#8, 0x7F#8, 0xFF#8, 0x7F#8]))
      (fun t => readMm t 0 = 0x7FFE000200000005#512 ∧ t.pc = 0x1004#64) = true := by
  decide +kernel

/-- V3.1, with marked upper bits. -/
theorem test_sse_keeps_upper_bits :
    nextHas (exec (.pmaddwdSse 1 (.reg 2) 4)
      (launch 0xABCD800080007FFF7FFFFFFF000100020001#512 0x800080007FFF7FFF0001FFFF00040003#512 0))
      (fun t => readVec t 1 = 0xABCD800000007FFE0002FFFFFFFE0000000B#512 ∧ t.pc = 0x1004#64) = true := by
  decide +kernel

/-- V3.6 -/
theorem test_sse_misaligned :
    faultOf (exec (.pmaddwdSse 1 (.mem (at64 7 0)) 4) (withG (launch 0 0 0) 7 0x3008#64)) =
      some (.gpAlign 0x1000#64 0x3008#64 16) := by
  decide +kernel

/-- V4.1 -/
theorem test_vex128_zeroes_upper_bits :
    nextHas (exec (.vpmaddwdVex128 1 2 (.reg 3) 4)
      (launch (BitVec.allOnes 512) 0x0004000300020001FFFEFFFF7FFF8000#512 0x0008000700060005000200017FFF8000#512))
      (fun t => readVec t 1 = 0x0000003500000011FFFFFFFB7FFF0001#512 ∧ t.pc = 0x1004#64) = true := by
  decide +kernel

/-- V4.3: all three operands the same register. -/
theorem test_vex128_same_register :
    nextHas (exec (.vpmaddwdVex128 1 1 (.reg 1) 4) (launch 0x0001000200030004FFFF80007FFF8000#512 0 0))
      (fun t => readVec t 1 = 0x0000000500000019400000017FFF0001#512) = true := by
  decide +kernel

/-- V5.1 -/
theorem test_vex256 :
    nextHas (exec (.vpmaddwdVex256 1 2 (.reg 3) 4)
      (launch (BitVec.allOnes 512) 0x0002000200020002000200020002000200020002000200020002000200020002#512
        0x000F000E000D000C000B000A0009000800070006000500040003000200010000#512))
      (fun t => readVec t 1 = 0x0000003A000000320000002A000000220000001A000000120000000A00000002#512) = true := by
  decide +kernel

/-- V5.6 -/
theorem test_vex256_needs_maxvl_256 :
    faultOf (exec (.vpmaddwdVex256 1 2 (.reg 3) 4) (withCfg (launch 0 0 0) fun c => { c with maxvl := .v128 })) =
      some (.ud 0x1000#64) := by
  decide +kernel

/-- V6.3: merging. -/
theorem test_evex128_merging :
    nextHas (exec (.vpmaddwdEvex128 1 2 (.reg 3) 1 false 6)
      (withK (launch 0xFFDDDDDDDDCCCCCCCCBBBBBBBBAAAAAAAA#512 0x0004000300020001FFFEFFFF7FFF8000#512
        0x0008000700060005000200017FFF8000#512) 1 5#64))
      (fun t => readVec t 1 = 0xDDDDDDDD00000011BBBBBBBB7FFF0001#512 ∧ t.pc = 0x1006#64) = true := by
  decide +kernel

/-- V6.2: zeroing. -/
theorem test_evex128_zeroing :
    nextHas (exec (.vpmaddwdEvex128 1 2 (.reg 3) 1 true 6)
      (withK (launch 0xFFDDDDDDDDCCCCCCCCBBBBBBBBAAAAAAAA#512 0x0004000300020001FFFEFFFF7FFF8000#512
        0x0008000700060005000200017FFF8000#512) 1 5#64))
      (fun t => readVec t 1 = 0x0000000000000011000000007FFF0001#512) = true := by
  decide +kernel

/-- V6.6: a memory operand, merging. -/
theorem test_evex256_memory :
    nextHas (exec (.vpmaddwdEvex256 1 2 (.mem (at64 7 0x20)) 2 false 7)
      (withBytes (withG (withK (launch ((BitVec.allOnes 256).setWidth 512)
        0x0002000200020002000200020002000200020002000200020002000200020002#512 0) 2 0xF0#64) 7 0x3000#64) 0x3020
        (bytesOf 32 0x000F000E000D000C000B000A0009000800070006000500040003000200010000)))
      (fun t => readVec t 1 = 0x0000003A000000320000002A00000022FFFFFFFFFFFFFFFFFFFFFFFFFFFFFFFF#512) = true := by
  decide +kernel

/-- V6.5: mask bits from KL upwards are not read. -/
theorem test_evex256_ignores_high_mask_bits :
    nextHas (exec (.vpmaddwdEvex256 1 2 (.reg 3) 2 true 6) (withK (launch 1 (BitVec.allOnes 512) 3) 2 0xFF00#64))
      (fun t => readVec t 1 = 0#512) = true := by
  decide +kernel

/-- V6.8 -/
theorem test_evex512_zeroing :
    nextHas (exec (.vpmaddwdEvex512 1 2 (.reg 3) 7 true 6)
      (withK (launch 7 (BitVec.allOnes 512) (0x0020001F#512 <<< 480 ||| 0x00020001#512)) 7 0x8001#64))
      (fun t => (readVec t 1).extractLsb' 0 32 = 0xFFFFFFFD#32 ∧ (readVec t 1).extractLsb' 480 32 = 0xFFFFFFC1#32 ∧
        (readVec t 1).extractLsb' 32 448 = 0#448) = true := by
  decide +kernel

/-- V6.24: a fault under an empty mask. -/
theorem test_evex512_faults_under_mask :
    faultOf (exec (.vpmaddwdEvex512 1 2 (.mem (at64 7 0)) 1 false 6)
      (withCfg (withG (launch 0 0 0) 7 0x3000#64) fun c => { c with grants := [] })) =
      some (.memFault 0x1000#64 0x3000#64 64) := by
  decide +kernel

/-! ### Addresses (V2.8, V3.7, V3.12; R73 outside 64-bit mode) -/

theorem test_address_base_index :
    effAddr ⟨some 8, some ⟨9, 2⟩, 0x100, false, .a64⟩ 9 (withG (withG (launch 0 0 0) 8 0x10000#64) 9 0x10#64) = 0x10140#64 := by
  decide
theorem test_address_rip : effAddr ⟨none, none, 0x18, true, .a64⟩ 8 { launch 0 0 0 with pc := 0x401000#64 } = 0x401020#64 := by
  decide
theorem test_address_size_32 : effAddr ⟨some 0, none, 0, false, .a32⟩ 5 (withG (launch 0 0 0) 0 0xFFFFFFFF00002000#64) = 0x2000#64 := by
  decide
theorem test_address_wraps : effAddr (at64 0 (-2)) 4 (withG (launch 0 0 0) 0 1#64) = 0xFFFFFFFFFFFFFFFF#64 := by decide

/-! ### Decoding: words written out bit by bit from R68, R75, R76 and R80 -/

/-- `0F F5`, ModRM 11 000 001. -/
theorem test_decode_mmx : decode true [0x0F#8, 0xF5#8, 0b11000001#8] = .instr (.pmaddwdMmx 0 (.reg 1) 3) := by decide
/-- REX 0100 0011, `0F F5`, ModRM 10 111 100, SIB 10 001 000, disp32 (V2.8). -/
theorem test_decode_mmx_sib :
    decode true [0b01000011#8, 0x0F#8, 0xF5#8, 0b10111100#8, 0b10001000#8, 0x00#8, 0x01#8, 0x00#8, 0x00#8] =
      .instr (.pmaddwdMmx 7 (.mem ⟨some 8, some ⟨9, 2⟩, 256, false, .a64⟩) 9) := by decide
/-- `66`, REX 0100 0100, `0F F5`, ModRM 11 001 010 (V3.3). -/
theorem test_decode_sse :
    decode true [0x66#8, 0b01000100#8, 0x0F#8, 0xF5#8, 0b11001010#8] = .instr (.pmaddwdSse 9 (.reg 2) 5) := by decide
/-- RIP-relative (V3.7). -/
theorem test_decode_sse_rip :
    decode true [0x66#8, 0x0F#8, 0xF5#8, 0x0D#8, 0x18#8, 0x00#8, 0x00#8, 0x00#8] =
      .instr (.pmaddwdSse 1 (.mem ⟨none, none, 24, true, .a64⟩) 8) := by decide
/-- `C5`, ~R 0, ~vvvv 0000, L 0, pp 01, ModRM 00 001 111 (V4.6). -/
theorem test_decode_vex128 :
    decode true [0xC5#8, 0b00000001#8, 0xF5#8, 0b00001111#8] = .instr (.vpmaddwdVex128 9 15 (.mem (at64 7 0)) 4) := by decide
/-- `C4`, ~R ~X ~B 111, map 00001, W 1 ~vvvv 1101 L 1 pp 01 (V5.2). -/
theorem test_decode_vex256 :
    decode true [0xC4#8, 0b11100001#8, 0b11101101#8, 0xF5#8, 0xCB#8] = .instr (.vpmaddwdVex256 1 2 (.reg 3) 5) := by decide
/-- V6.2 -/
theorem test_decode_evex128 :
    decode true [0x62#8, 0b11110001#8, 0b01101101#8, 0b10001001#8, 0xF5#8, 0xCB#8] =
      .instr (.vpmaddwdEvex128 1 2 (.reg 3) 1 true 6) := by decide
/-- disp8 scaled by 32 (V6.6). -/
theorem test_decode_evex256 :
    decode true [0x62#8, 0xF1#8, 0x6D#8, 0x2A#8, 0xF5#8, 0x4F#8, 0x01#8] =
      .instr (.vpmaddwdEvex256 1 2 (.mem (at64 7 32)) 2 false 7) := by decide
/-- Registers 17, 18, 19 (V6.11). -/
theorem test_decode_evex512 :
    decode true [0x62#8, 0b10100001#8, 0b01101101#8, 0b01000000#8, 0xF5#8, 0xCB#8] =
      .instr (.vpmaddwdEvex512 17 18 (.reg 19) 0 false 6) := by decide
/-- V6.14: X extends the index; disp8 scaled by 64. -/
theorem test_decode_evex512_sib :
    decode true [0x62#8, 0x21#8, 0x15#8, 0x43#8, 0xF5#8, 0x74#8, 0xF0#8, 0x02#8] =
      .instr (.vpmaddwdEvex512 30 29 (.mem ⟨some 0, some ⟨14, 3⟩, 128, false, .a64⟩) 3 false 8) := by decide

/-! ### Decoding: faults and refusals (V3.13, V4.8, V6.16 to V6.21, V7) -/

theorem test_decode_lock : decode true [0xF0#8, 0x0F#8, 0xF5#8, 0xC1#8] = .ud := by decide
theorem test_decode_66_before_vex : decode true [0x66#8, 0xC5#8, 0xE9#8, 0xF5#8, 0xCB#8] = .ud := by decide
theorem test_decode_rex_before_vex : decode true [0x48#8, 0xC5#8, 0xE9#8, 0xF5#8, 0xCB#8] = .ud := by decide
theorem test_decode_rep : decode true [0xF3#8, 0x0F#8, 0xF5#8, 0xC1#8] = .refused .repPrefix := by decide
theorem test_decode_fs : decode true [0x64#8, 0x0F#8, 0xF5#8, 0x00#8] = .refused .fsGsOverride := by decide
theorem test_decode_repeat : decode true [0x66#8, 0x66#8, 0x0F#8, 0xF5#8, 0xCA#8] = .refused .prefixRepeat := by decide
theorem test_decode_reserved_p0 :
    decode true [0x62#8, 0xF9#8, 0x6D#8, 0x08#8, 0xF5#8, 0xCB#8] = .refused .evexReserved := by decide
theorem test_decode_reserved_p1 :
    decode true [0x62#8, 0xF1#8, 0x69#8, 0x08#8, 0xF5#8, 0xCB#8] = .refused .evexReserved := by decide
theorem test_decode_other_map : decode true [0xC4#8, 0xE2#8, 0x69#8, 0xF5#8, 0xCB#8] = .refused .notPmaddwd := by decide
theorem test_decode_other_pp : decode true [0xC5#8, 0xE8#8, 0xF5#8, 0xCB#8] = .refused .notPmaddwd := by decide
theorem test_decode_addr16 : decode false [0x67#8, 0x0F#8, 0xF5#8, 0x00#8] = .refused .addr16 := by decide
theorem test_decode_lds : decode false [0xC5#8, 0x69#8, 0xF5#8, 0xCB#8] = .refused .notPmaddwd := by decide
theorem test_decode_high_reg : decode false [0xC4#8, 0xC1#8, 0x69#8, 0xF5#8, 0xCB#8] = .refused .highRegIn32 := by decide
theorem test_decode_no_rex_in_32 : decode false [0x44#8, 0x0F#8, 0xF5#8, 0xC1#8] = .refused .notPmaddwd := by decide
/-- P4: an absolute address outside 64-bit mode. -/
theorem test_decode_absolute_in_32 :
    decode false [0x0F#8, 0xF5#8, 0x05#8, 0x00#8, 0x10#8, 0x00#8, 0x00#8] =
      .instr (.pmaddwdMmx 0 (.mem ⟨none, none, 0x1000, false, .a32⟩) 7) := by decide

/-! ### Encoding (the same vectors, the other way) -/

theorem test_encode_vex128 :
    encode true Spelling.plain (.vpmaddwdVex128 1 2 (.reg 3) 4) = [0xC5#8, 0xE9#8, 0xF5#8, 0xCB#8] := by decide
theorem test_encode_evex512 :
    encode true Spelling.plain (.vpmaddwdEvex512 30 29 (.mem ⟨some 0, some ⟨14, 3⟩, 128, false, .a64⟩) 3 false 8) =
      [0x62#8, 0x21#8, 0x15#8, 0x43#8, 0xF5#8, 0x74#8, 0xF0#8, 0x02#8] := by decide
theorem test_encode_sse_r13 :
    encode true Spelling.plain (.pmaddwdSse 1 (.mem (at64 13 0)) 6) = [0x66#8, 0x41#8, 0x0F#8, 0xF5#8, 0x4D#8, 0x00#8] := by
  decide
theorem test_encode_sse_r12 :
    encode true Spelling.plain (.pmaddwdSse 1 (.mem (at64 12 0)) 6) = [0x66#8, 0x41#8, 0x0F#8, 0xF5#8, 0x0C#8, 0x24#8] := by
  decide

/-! ### The host's table words: every row of spec/opcode_table.json that a word of its own bytes can show -/

theorem test_table_mmx : (decodeTableWord 16 0xF50F).map Instr.form = some .mmx := by decide
theorem test_table_sse : (decodeTableWord 24 0xF50F66).map Instr.form = some .sse := by decide
theorem test_table_vex128 : (decodeTableWord 24 0xF501C5).map Instr.form = some .vex128 := by decide
theorem test_table_vex128_long : (decodeTableWord 32 0xF50101C4).map Instr.form = some .vex128 := by decide
theorem test_table_vex256 : (decodeTableWord 24 0xF505C5).map Instr.form = some .vex256 := by decide
theorem test_table_vex256_long : (decodeTableWord 32 0xF50501C4).map Instr.form = some .vex256 := by decide
theorem test_table_evex128 : (decodeTableWord 40 0xF500050162).map Instr.form = some .evex128 := by decide
theorem test_table_evex256 : (decodeTableWord 40 0xF520050162).map Instr.form = some .evex256 := by decide
theorem test_table_evex512 : (decodeTableWord 40 0xF540050162).map Instr.form = some .evex512 := by decide
theorem test_first_step_mmx : isNext (step (State.reset.withFetchWord 16 0xF50F)) = true := by decide
theorem test_first_step_evex512 : isNext (step (State.reset.withFetchWord 40 0xF540050162)) = true := by decide

/-! ### Well-formedness: an ill-formed term for each check -/

theorem test_wf_register_below_nvec : (Instr.pmaddwdSse 8 (.reg 0) 4).wf false 8 = false := by decide
theorem test_wf_source_below_nvec : (Instr.vpmaddwdVex128 0 8 (.reg 0) 4).wf false 8 = false := by decide
theorem test_wf_rm_below_nvec : (Instr.vpmaddwdVex256 0 0 (.reg 8) 4).wf false 8 = false := by decide
theorem test_wf_evex_below_nvec : (Instr.vpmaddwdEvex512 16 0 (.reg 0) 0 false 6).wf true 16 = false := by decide
theorem test_wf_zeroing_needs_mask : (Instr.vpmaddwdEvex128 0 0 (.reg 0) 0 true 6).wf true 32 = false := by decide
theorem test_wf_base_exists : (Instr.pmaddwdMmx 0 (.mem ⟨some 8, none, 0, false, .a32⟩) 4).wf false 8 = false := by decide
theorem test_wf_index_exists : (Instr.pmaddwdMmx 0 (.mem ⟨none, some ⟨8, 0⟩, 0, false, .a32⟩) 4).wf false 8 = false := by decide
theorem test_wf_index_not_4 : (Instr.pmaddwdMmx 0 (.mem ⟨none, some ⟨4, 0⟩, 0, false, .a64⟩) 4).wf true 8 = false := by decide
theorem test_wf_disp_range : (Instr.pmaddwdMmx 0 (.mem (at64 0 2147483648)) 7).wf true 8 = false := by decide
theorem test_wf_disp_range_low : (Instr.pmaddwdMmx 0 (.mem (at64 0 (-2147483649))) 7).wf true 8 = false := by decide
theorem test_wf_rip_excludes_base : (Instr.pmaddwdMmx 0 (.mem ⟨some 0, none, 0, true, .a64⟩) 7).wf true 8 = false := by decide
theorem test_wf_rip_needs_mode64 : (Instr.pmaddwdMmx 0 (.mem ⟨none, none, 0, true, .a32⟩) 7).wf false 8 = false := by decide
theorem test_wf_address_size : (Instr.pmaddwdMmx 0 (.mem (at64 0 0)) 3).wf false 8 = false := by decide
theorem test_wf_length_low : (Instr.pmaddwdMmx 0 (.reg 0) 2).wf true 8 = false := by decide
theorem test_wf_length_high : (Instr.vpmaddwdEvex512 0 0 (.reg 0) 0 false 14).wf true 32 = false := by decide
theorem test_wf_accepts : (Instr.vpmaddwdEvex512 31 30 (.reg 29) 7 true 6).wf true 32 = true := by decide

/-! ### Memory, and R141's table -/

theorem test_put_removes_unlisted : Memory.put (Memory.put [] 5 7#8) 5 0#8 = [] := by decide
theorem test_put_sorts : Memory.put (Memory.put [] 5 7#8) 3 1#8 = [(3, 1#8), (5, 7#8)] := by decide
theorem test_hardware_gp : hardwareExceptions (.gpAlign 0 8 16) = [⟨13, .zero⟩] := by decide

/-! ### Witnesses: hypotheses of the statements that some state and operands meet -/

/-- A state at pc = 1000H with `vpmaddwd xmm1, xmm2, xmm3` there. -/
def vexProgram : State := withBytes (launch 5 6 7) 0x1000 [0xC5#8, 0xE9#8, 0xF5#8, 0xCB#8]

/-- MaddWrapsOnlyWhenAllWordsAre8000, at the input next to the excluded one. -/
theorem test_witness_not_all_8000 : ¬ ((0x80008000#32 : DWord) = 0x80008000#32 ∧ (0x80018000#32 : DWord) = 0x80008000#32) := by
  decide

/-- MaddActsOnEachDoubleword, MaskedMaddActsOnEachDoubleword and AnyAdmissionPredicateCanBeGiven (n ≤ 64): the top doubleword of sixteen, under each mask case. -/
theorem test_witness_top_doubleword :
    (16 ≤ 16 ∧ 15 < 16) ∧ 64 ≤ 64 ∧ (0x8000#64 : QWord).getLsbD 15 = true ∧ (0x7FFF#64 : QWord).getLsbD 15 = false := by decide

/-- ...CompletesWith..., with a register and with a memory operand. -/
theorem test_witness_ready :
    ready (.pmaddwdMmx 0 (.reg 1) 3) State.reset = true ∧ ready (.pmaddwdMmx 0 (.mem (at64 0 3)) 4) State.reset = true ∧
    ready (.pmaddwdSse 0 (.reg 1) 4) State.reset = true ∧ ready (.pmaddwdSse 0 (.mem (at64 0 16)) 4) State.reset = true ∧
    ready (.vpmaddwdVex128 0 1 (.reg 2) 4) State.reset = true ∧
    ready (.vpmaddwdVex128 0 1 (.mem (at64 0 1)) 4) State.reset = true ∧
    ready (.vpmaddwdVex256 0 1 (.reg 2) 4) State.reset = true ∧
    ready (.vpmaddwdVex256 0 1 (.mem (at64 0 1)) 4) State.reset = true := by decide

theorem test_witness_ready_evex :
    ready (.vpmaddwdEvex128 16 17 (.reg 31) 1 true 6) State.reset = true ∧
    ready (.vpmaddwdEvex128 16 17 (.mem (at64 0 1)) 0 false 6) State.reset = true ∧
    ready (.vpmaddwdEvex256 16 17 (.reg 31) 1 true 6) State.reset = true ∧
    ready (.vpmaddwdEvex256 16 17 (.mem (at64 0 1)) 0 false 6) State.reset = true ∧
    ready (.vpmaddwdEvex512 16 17 (.reg 31) 1 true 6) State.reset = true ∧
    ready (.vpmaddwdEvex512 16 17 (.mem (at64 0 1)) 0 false 6) State.reset = true := by decide

/-- VectorFormsFrame, MmxFormFrame, MmxFormMarksX87Registers. -/
theorem test_witness_frames :
    isNext (exec (.pmaddwdMmx 0 (.reg 1) 3) State.reset) = true ∧ isNext (exec (.pmaddwdSse 0 (.reg 1) 4) State.reset) = true ∧
    dstVec (.pmaddwdSse 0 (.reg 1) 4) = some 0 := by decide

/-- R37's effects, seen on the state after reset. -/
theorem test_mmx_marks_x87 :
    nextHas (exec (.pmaddwdMmx 2 (.reg 1) 3) State.reset)
      (fun t => t.x87Tag = 0#16 ∧ t.x87Hi.get 2 = 0xFFFF#16 ∧ t.x87Hi.get 1 = 0#16) = true := by decide

/-- AbsentFormRaisesUd, one case of each clause: V2.10, V4.9, V5.5, V6.22, V6.23. -/
theorem test_absent_forms :
    faultOf (exec (.pmaddwdMmx 0 (.reg 1) 3)
      (withCfg State.reset fun c => { c with feat := { c.feat with mmx := false } })) = some (.ud 0xFFFFFFF0#64) ∧
    faultOf (exec (.pmaddwdSse 0 (.reg 1) 4)
      (withCfg State.reset fun c => { c with feat := { c.feat with sse2 := false } })) = some (.ud 0xFFFFFFF0#64) ∧
    faultOf (exec (.vpmaddwdVex128 0 1 (.reg 1) 4)
      (withCfg State.reset fun c => { c with feat := { c.feat with avx := false } })) = some (.ud 0xFFFFFFF0#64) ∧
    faultOf (exec (.vpmaddwdVex256 0 1 (.reg 1) 4)
      (withCfg State.reset fun c => { c with feat := { c.feat with avx2 := false } })) = some (.ud 0xFFFFFFF0#64) ∧
    faultOf (exec (.vpmaddwdEvex128 0 1 (.reg 1) 0 false 6)
      (withCfg State.reset fun c => { c with feat := { c.feat with avx512vl := false, avx10v1 := false } })) =
        some (.ud 0xFFFFFFF0#64) ∧
    isNext (exec (.vpmaddwdEvex512 0 1 (.reg 1) 0 false 6)
      (withCfg State.reset fun c => { c with feat := { c.feat with avx512vl := false, avx10v1 := false } })) = true ∧
    faultOf (exec (.vpmaddwdEvex512 0 1 (.reg 1) 0 false 6)
      (withCfg State.reset fun c => { c with feat := { c.feat with avx512bw := false, avx10v1 := false } })) =
        some (.ud 0xFFFFFFF0#64) := by decide

/-- DisabledFormRaisesUd. -/
theorem test_disabled_form :
    faultOf (exec (.pmaddwdMmx 0 (.reg 1) 3)
      (withCfg State.reset fun c => { c with os := { c.os with mmx := false } })) = some (.ud 0xFFFFFFF0#64) := by decide

/-- TaskSwitchedRaisesNm (V7.12), and that it comes before MemFault. -/
theorem test_task_switched :
    faultOf (exec (.vpmaddwdEvex512 0 1 (.mem (at64 0 0)) 0 false 6)
      (withCfg State.reset fun c => { c with tsClear := false, grants := [] })) = some (.nm 0xFFFFFFF0#64) := by decide

/-- PendingX87RaisesMfOnMmxFormOnly (V2.9). -/
theorem test_pending_x87 :
    faultOf (exec (.pmaddwdMmx 0 (.reg 1) 3) (withCfg State.reset fun c => { c with x87Pending := true })) =
      some (.mf 0xFFFFFFF0#64) ∧
    isNext (exec (.pmaddwdSse 0 (.reg 1) 4) (withCfg State.reset fun c => { c with x87Pending := true })) = true := by decide

/-- MisalignedSseOperandRaisesGpAlign. -/
theorem test_witness_misaligned_sse :
    inSpace State.reset.cfg (State.reset.pc.toNat + 4) 1 = true ∧ formReady .sse State.reset = true ∧
    (effAddr (at64 0 15) 4 State.reset).extractLsb' 0 4 ≠ 0#4 := by decide

/-- UnadmittedOperandRaisesMemFault: addresses at the edge of the canonical space. -/
theorem test_unadmitted_operand :
    faultOf (exec (.pmaddwdSse 0 (.mem (at64 0 0)) 4) (withG State.reset 0 0x800000000000#64)) =
      some (.memFault 0xFFFFFFF0#64 0x800000000000#64 16) ∧
    isNext (exec (.pmaddwdSse 0 (.mem (at64 0 0)) 4) (withG State.reset 0 0x7FFFFFFFFFF0#64)) = true ∧
    faultOf (exec (.pmaddwdMmx 0 (.mem (at64 0 0)) 4) (withG State.reset 0 0xFFFFFFFFFFFFFFF9#64)) =
      some (.memFault 0xFFFFFFF0#64 0xFFFFFFFFFFFFFFF9#64 8) := by decide

/-- AlignmentCheckingMakesMisalignedOperandsFault. -/
theorem test_alignment_checking :
    faultOf (exec (.pmaddwdMmx 0 (.mem (at64 0 4)) 4) (withCfg State.reset fun c => { c with acOff := false })) =
      some (.memFault 0xFFFFFFF0#64 4#64 8) := by decide

/-- LeavingTheAddressRangeIsRefused: the successor (exec), and V7.13: a byte the decoder needs (step). -/
theorem test_successor_beyond_range :
    refusalOf (exec (.pmaddwdMmx 0 (.reg 1) 3) { launch32 with pc := 0xFFFFFFFD#64 }) = some .pcRange ∧
    isNext (exec (.pmaddwdMmx 0 (.reg 1) 3) { launch32 with pc := 0xFFFFFFFC#64 }) = true := by decide

theorem test_step_beyond_range :
    refusalOf (step (withCfg (withBytes { launch32 with pc := 0xFFFFFFFE#64 } 0xFFFFFFFE [0x0F#8, 0xF5#8])
      fun c => { c with grants := [⟨.fetch, 1, 0, 0x100000000⟩] })) = some .pcRange := by decide

/-- EffectiveAddress... and RipRelative...: the tests of addresses above meet their hypotheses in each clause. -/
theorem test_witness_addresses :
    (at64 0 0).rip = false ∧ (at64 0 0).asz = .a64 ∧ (⟨none, none, 0, true, .a32⟩ : MemExpr).rip = true := by decide

/-- MemoryReadsAreLittleEndian, at the largest size. -/
theorem test_memory_read : (memRead vexProgram 0x1000#64 64).toNat = 0xCBF5E9C5 ∧ (64 : Nat) ≤ 64 := by decide +kernel

/-- AdmittedAccessesStayInCanonicalSpace: the last admitted access of each half, with 48-bit and 57-bit addresses, and of
the 32-bit space. -/
theorem test_witness_admits :
    admits launchConfig .read 0x7FFFFFFFFFF8 8 = true ∧ admits launchConfig .read 0x7FFFFFFFFFF9 8 = false ∧
    admits launchConfig .fetch 0xFFFFFFFFFFFFFFFF 1 = true ∧
    admits { launchConfig with la57 := true, grants := [⟨.read, 1, 0, 2 ^ 64⟩] } .read 0xFFFFFFFFFFFFFF 1 = true ∧
    admits { launchConfig with mode64 := false } .read 0xFFFFFFF8 8 = true ∧
    admits { launchConfig with mode64 := false } .read 0xFFFFFFF9 8 = false := by decide

/-- R41: `Admits` is any predicate: here 64 bytes at 3000H may be read, and 16 bytes inside them may not. -/
theorem test_admits_not_closed :
    admits { launchConfig with grants := [⟨.read, 64, 0x3000, 1⟩] } .read 0x3000 64 = true ∧
    admits { launchConfig with grants := [⟨.read, 64, 0x3000, 1⟩] } .read 0x3000 16 = false := by decide

/-- OnlyLowMaskBitsAreRead: two opmask files that differ from bit 4 of K1 upwards. -/
theorem test_witness_mask :
    isNext (exec (.vpmaddwdEvex128 1 2 (.reg 3) 1 true 6) (withK State.reset 1 0xFFF5#64)) = true ∧
    (∀ j < 4, (0xFFF5#64 : QWord).getLsbD j = (5#64 : QWord).getLsbD j) := by decide

/-- UnmaskedEvex128AgreesWithVex128. -/
theorem test_witness_both_ready : formReady .vex128 State.reset = true ∧ formReady .evex128 State.reset = true := by decide

/-- StepRunsTheDecodedInstruction, EveryStepKeepsTheInvariant and the statements about a step that completes. -/
theorem test_witness_code :
    vexProgram.mark = .clear ∧ codeAt vexProgram [0xC5#8, 0xE9#8, 0xF5#8, 0xCB#8] ∧
    decode vexProgram.cfg.mode64 [0xC5#8, 0xE9#8, 0xF5#8, 0xCB#8] = .instr (.vpmaddwdVex128 1 2 (.reg 3) 4) := by
  decide +kernel

theorem test_witness_step : isNext (step vexProgram) = true := by decide +kernel

theorem test_witness_invariant : Inv vexProgram := by decide +kernel

/-- UnfetchableByteRaisesFetchFault (V7.7). -/
theorem test_fetch_fault :
    faultOf (step (withCfg (withBytes (launch 0 0 0) 0x1000 [0x0F#8, 0xF5#8]) fun c => { c with grants := [⟨.fetch, 1, 0x1000, 2⟩] })) =
      some (.fetchFault 0x1000#64 0x1002#64) := by decide +kernel

/-- FaultsArePreciseAndTerminal, EveryFaultRecordsPc: a LOCK prefix. -/
theorem test_witness_fault :
    isSettled (withBytes (launch 0 0 0) 0x1000 [0xF0#8, 0x0F#8, 0xF5#8]) = false ∧
    faultOf (step (withBytes (launch 0 0 0) 0x1000 [0xF0#8, 0x0F#8, 0xF5#8])) = some (.ud 0x1000#64) := by decide +kernel

/-- RefusalsAreTerminal: empty memory decodes to nothing (R92). -/
theorem test_witness_refusal :
    isSettled State.reset = false ∧ refusalOf (step State.reset) = some .notPmaddwd := by decide

/-- FinalStatesStay. -/
theorem test_witness_final : isFinal { State.reset with pc := 0#64 } = true := by decide

/-- EveryRunEnds, in P1's shape: the run stops at end_addr after one instruction. -/
theorem test_run_to_end :
    isFinal (run 2 (withCfg vexProgram fun c => { c with endAddr := 0x1004#64 })) = true := by decide +kernel

/-- DecodingReadsOnlyTheBytesItNeeds, DecodedInstructionsAreWellFormed, SupportedInstructionsNameExistingRegisters. -/
theorem test_witness_decoded :
    decode true [0xC5#8, 0xE9#8, 0xF5#8, 0xCB#8] ≠ .short ∧ formSupported launchConfig .vex128 = true ∧
    (Instr.vpmaddwdVex128 1 2 (.reg 3) 4).wf true 32 = true ∧
    decode false [0xC5#8, 0xE9#8, 0xF5#8, 0xCB#8] = .instr (.vpmaddwdVex128 1 2 (.reg 3) 4) := by decide

/-- IllegalEvexCombinationsRaiseUd: one case of each alternative (V6.16, V6.17, V6.18), and one outside 64-bit mode. -/
theorem test_illegal_evex :
    decode true [0x62#8, 0xF1#8, 0x6D#8, 0x88#8, 0xF5#8, 0xCB#8] = .ud ∧
    decode true [0x62#8, 0xF1#8, 0x6D#8, 0x18#8, 0xF5#8, 0xCB#8] = .ud ∧
    decode true [0x62#8, 0xF1#8, 0x6D#8, 0x68#8, 0xF5#8, 0xCB#8] = .ud ∧
    decode false [0x62#8, 0xF1#8, 0x6D#8, 0x18#8, 0xF5#8, 0xCB#8] = .ud := by decide

theorem test_witness_evex_fields :
    evexSelects 0xF1#8 0x6D#8 ∧ startsVex false 0xF1#8 ∧ ¬ startsVex false 0x71#8 ∧ (0x68#8 : Byte).extractLsb' 5 2 = 3#2 ∧
    (0x88#8 : Byte).getLsbD 7 = true ∧ (0x88#8 : Byte).extractLsb' 0 3 = 0#3 ∧ (0x18#8 : Byte).getLsbD 4 = true := by decide

/-- The bytes before an opcode: the head of LockPrefixRaisesUd and of the statements after it, with REX and 67H in 64-bit
mode, without them outside it. -/
theorem test_witness_head :
    headOk true [0x67#8, 0xF0#8, 0x3E#8] (some 0x48#8) ∧ headOk false [0xF0#8, 0x66#8] none ∧ headOk true [0xF3#8] none ∧
    headOk false [0x2E#8] none := by
  refine ⟨?_, ?_, ?_, ?_⟩ <;> decide

/-- LockPrefixRaisesUd, with a REX prefix in between. -/
theorem test_lock_rex : decode true [0xF0#8, 0x48#8, 0x0F#8, 0xF5#8, 0xC1#8] = .ud := by decide

/-- IllegalPrefixBeforeVexOrEvexRaisesUd: each of the five before one of the three prefixes, in both modes. -/
theorem test_illegal_before_vex :
    decode true [0x48#8, 0xC5#8, 0xE9#8, 0xF5#8, 0xCB#8] = .ud ∧ decode false [0x66#8, 0xC5#8, 0xE9#8, 0xF5#8, 0xCB#8] = .ud ∧
    decode true [0xF0#8, 0xC4#8, 0xE1#8, 0x69#8, 0xF5#8, 0xCB#8] = .ud ∧
    decode false [0xF2#8, 0x62#8, 0xF1#8, 0x6D#8, 0x08#8, 0xF5#8, 0xCB#8] = .ud ∧
    decode true [0xF3#8, 0x62#8, 0xF1#8, 0x6D#8, 0x08#8, 0xF5#8, 0xCB#8] = .ud := by decide

/-- PrefixRunsAreRefusedByName: a run for each clause. -/
theorem test_witness_runs :
    ¬ runOnce [0x66#8, 0x3E#8, 0x66#8] ∧ ¬ runOnce [0x3E#8, 0x64#8] ∧ runOnce [0x65#8, 0x66#8, 0x67#8] ∧
    decode false [0x67#8, 0xF0#8, 0x0F#8] = .refused .addr16 ∧
    decode true [0x3E#8, 0x26#8, 0x0F#8] = .refused .prefixRepeat ∧
    decode true [0xF2#8, 0x40#8, 0x0F#8, 0xF5#8] = .refused .repPrefix := by decide

/-- HighRegistersAreRefusedIn32BitMode: each bit that may be 0 there. -/
theorem test_high_registers_32 :
    decode false [0xC4#8, 0xC1#8, 0x69#8, 0xF5#8, 0xCB#8] = .refused .highRegIn32 ∧
    decode false [0xC4#8, 0xE1#8, 0x29#8, 0xF5#8, 0xCB#8] = .refused .highRegIn32 ∧
    decode false [0x62#8, 0xD1#8, 0x6D#8, 0x08#8, 0xF5#8, 0xCB#8] = .refused .highRegIn32 ∧
    decode false [0x62#8, 0xE1#8, 0x6D#8, 0x08#8, 0xF5#8, 0xCB#8] = .refused .highRegIn32 ∧
    decode false [0x62#8, 0xF1#8, 0x2D#8, 0x08#8, 0xF5#8, 0xCB#8] = .refused .highRegIn32 ∧
    decode false [0x62#8, 0xF1#8, 0x6D#8, 0x00#8, 0xF5#8, 0xCB#8] = .refused .highRegIn32 := by decide

/-- ReservedEvexBitsAreRefused, with another map and opcode and outside 64-bit mode. -/
theorem test_reserved_evex :
    decode true [0x62#8, 0xFA#8, 0x6D#8, 0x08#8, 0x00#8] = .refused .evexReserved ∧
    decode false [0x62#8, 0xF1#8, 0x69#8, 0x08#8] = .refused .evexReserved := by decide

/-- OtherOpcodesAreRefused (V7.4, V7.5), one case of each clause. -/
theorem test_other_opcodes :
    decode true [0xC3#8] = .refused .notPmaddwd ∧ decode true [0x48#8, 0x66#8, 0x0F#8, 0xF5#8, 0xC1#8] = .refused .notPmaddwd ∧
    decode true [0x0F#8, 0xF4#8, 0xC1#8] = .refused .notPmaddwd ∧
    decode true [0xC5#8, 0xE9#8, 0xF4#8, 0xCB#8] = .refused .notPmaddwd ∧
    decode false [0xC4#8, 0xE2#8, 0x69#8, 0xF5#8, 0xCB#8] = .refused .notPmaddwd ∧
    decode true [0x62#8, 0xF1#8, 0x6C#8, 0x08#8, 0xF5#8, 0xCB#8] = .refused .notPmaddwd ∧
    decode false [0x62#8, 0x31#8, 0x6D#8] = .refused .notPmaddwd := by decide

end Sys2Proof.Tests
end

/-! PROOFS. How a run ends: a settled state stays, and a refusal leaves a marked, unfinished state (R12, R92, R176). -/

namespace Sys2Proof.Machine

theorem runStep_of_isSettled {s : State} (h : isSettled s = true) : runStep s = s := if_pos h

/-- An ended run stays where it ended (R12, R176). -/
theorem run_of_isSettled {s : State} (h : isSettled s = true) (n : Nat) : run n s = s := by
  induction n with
  | zero => rfl
  | succ n ih => rw [run, runStep_of_isSettled h, ih]

theorem isFinal_eq_false_of_mark {s : State} (h : s.mark ≠ .clear) : isFinal s = false := by
  simp [isFinal, h]

theorem isSettled_of_mark {s : State} (h : s.mark ≠ .clear) : isSettled s = true := by
  simp [isSettled, isMarked, h]

/-- A state marked refused answers its refusal again (R12). -/
theorem step_of_mark_refused {s : State} {r : Refusal} (h : s.mark = .refused r) : step s = .refused r := by
  simp [step, h]

theorem runStep_of_refused {s : State} {r : Refusal} (hs : isSettled s = false) (hr : step s = .refused r) :
    runStep s = markWith s (.refused r) := by
  simp [runStep, hs, hr]

/-- A run whose next step is refused only gains the mark, however many steps follow (R12, R92). -/
theorem run_succ_of_refused {s : State} {r : Refusal} (hs : isSettled s = false) (hr : step s = .refused r) (n : Nat) :
    run (n + 1) s = markWith s (.refused r) := by
  rw [run, runStep_of_refused hs hr]
  exact run_of_isSettled (isSettled_of_mark (by simp)) n

/-- Settles O38: the run stops in the state marked refused, and a marked state is not final and steps no further. -/
theorem refusalsAreTerminal : Obligations.RefusalsAreTerminal := by
  intro s r n hs hr
  rw [run_succ_of_refused hs hr n]
  exact ⟨rfl, isFinal_eq_false_of_mark (by simp), step_of_mark_refused (markWith_mark ..)⟩

end Sys2Proof.Machine

/-! PROOFS. What a completed instruction writes, and so what every step keeps (R20, R25, R33, R34, R37, R41, R42). -/

namespace Sys2Proof.Machine

/-! ### The value written stays below MAXVL -/

/-- `MADD` into the low doublewords of a register adds no bit to those the register may have (R25, R112). -/
theorem maddKeep_toNat_lt {n w : Nat} {old : VWord} (a b : VWord) (hn : 32 * n ≤ w) (hold : old.toNat < 2 ^ w) :
    (maddKeep n old a b).toNat < 2 ^ w := by
  refine Nat.lt_pow_two_of_testBit _ fun i hi => ?_
  have hbit : old.getLsbD i = false := by
    rw [← BitVec.testBit_toNat]
    exact Nat.testBit_lt_two_pow (Nat.lt_of_lt_of_le hold (Nat.pow_le_pow_right (by decide) hi))
  have hkeep : ¬ i / 32 < n := by omega
  simp [maddKeep, BitVec.testBit_toNat, getLsbD_pack, hkeep, lane, Nat.div_add_mod, hbit]

/-- Every form's vector length is a whole number of doublewords, at most sixteen (R84). -/
theorem formKl_spec (f : Form) : 32 * formKl f = formVl f ∧ formKl f ≤ 16 := by
  cases f <;> decide

theorem formVl_le_of_formReady {f : Form} {s : State} (h : formReady f s = true) : formVl f ≤ s.cfg.maxvl.bits := by
  simp only [formReady, formSupported, Bool.and_eq_true, decide_eq_true_eq] at h
  obtain ⟨⟨⟨⟨-, hvl⟩, -⟩, -⟩, -⟩ := h
  exact hvl

/-! ### The one register write of each form -/

/-- A value that an instruction of form `f` can write over `old`: packed doublewords with zeros above them, or, in form
SSE, the old bits above them (R112, R120, R133). -/
def VecResult (f : Form) (old v : VWord) : Prop :=
  (∃ g, v = pack (formKl f) g) ∨ (f = .sse ∧ ∃ b, v = maddKeep 4 old old b)

/-- Such a value has no bits above MAXVL where the form is ready and the old value has none (R25, R143). -/
theorem VecResult.toNat_lt {f : Form} {s : State} {old v : VWord} (h : VecResult f old v) (hf : formReady f s = true)
    (hold : old.toNat < 2 ^ s.cfg.maxvl.bits) : v.toNat < 2 ^ s.cfg.maxvl.bits := by
  have hvl := formVl_le_of_formReady hf
  obtain ⟨hkl, hle⟩ := formKl_spec f
  rcases h with ⟨g, rfl⟩ | ⟨rfl, b, rfl⟩
  · exact Nat.lt_of_lt_of_le (pack_toNat_lt _ g hle) (Nat.pow_le_pow_right (by decide) (by omega))
  · exact maddKeep_toNat_lt _ b hvl hold

/-- What a vector form's completion is: one write of a vector register, and the advance of pc (R112, R120, R130). -/
def WritesVec (f : Form) (len : Nat) (s t : State) (d : Nat) : Prop :=
  ∃ (r : Fin 32) (v : VWord), r.val = d ∧ VecResult f (readVec s r) v ∧ t = advancePc len (writeVec s r v)

theorem vexMadd_eq_next {f : Form} {dst src1 : Fin 16} {src2 : RM 16} {len : Nat} {s t : State}
    (h : vexMadd f dst src1 src2 len s = .next t) : WritesVec f len s t dst.val := by
  obtain ⟨-, -, v, -, rfl⟩ := (complete_eq_next ..).1 h
  exact ⟨_, _, rfl, .inl ⟨_, rfl⟩, rfl⟩

theorem evexMadd_eq_next {f : Form} {dst src1 : Fin 32} {src2 : RM 32} {k : Fin 8} {z : Bool} {len : Nat} {s t : State}
    (h : evexMadd f dst src1 src2 k z len s = .next t) : WritesVec f len s t dst.val := by
  obtain ⟨-, -, v, -, rfl⟩ := (complete_eq_next ..).1 h
  exact ⟨_, _, rfl, .inl ⟨_, rfl⟩, rfl⟩

/-- An instruction with a vector destination writes that register and advances pc, and does nothing else. -/
theorem exec_vector_eq_next {i : Instr} {s t : State} {d : Nat} (hd : dstVec i = some d) (h : exec i s = .next t) :
    WritesVec i.form i.len s t d := by
  cases i with
  | pmaddwdMmx dst src len => cases hd
  | pmaddwdSse dst src len =>
    cases hd
    obtain ⟨-, -, v, -, rfl⟩ := (complete_eq_next ..).1 h
    exact ⟨_, _, rfl, .inr ⟨rfl, v, rfl⟩, rfl⟩
  | vpmaddwdVex128 dst src1 src2 len => cases hd; exact vexMadd_eq_next h
  | vpmaddwdVex256 dst src1 src2 len => cases hd; exact vexMadd_eq_next h
  | vpmaddwdEvex128 dst src1 src2 k z len => cases hd; exact evexMadd_eq_next h
  | vpmaddwdEvex256 dst src1 src2 k z len => cases hd; exact evexMadd_eq_next h
  | vpmaddwdEvex512 dst src1 src2 k z len => cases hd; exact evexMadd_eq_next h

/-- Form MMX writes its destination, with R37's effects on x87 state, and advances pc, and does nothing else. -/
theorem exec_mmx_eq_next {dst : Fin 8} {src : RM 8} {len : Nat} {s t : State}
    (h : exec (.pmaddwdMmx dst src len) s = .next t) : ∃ v, t = advancePc len (writeMm s dst v) := by
  obtain ⟨-, -, v, -, rfl⟩ := (complete_eq_next ..).1 h
  exact ⟨_, rfl⟩

/-- Only form MMX has no vector destination. -/
theorem dstVec_eq_none {i : Instr} (h : dstVec i = none) : ∃ dst src len, i = .pmaddwdMmx dst src len := by
  cases i with
  | pmaddwdMmx dst src len => exact ⟨dst, src, len, rfl⟩
  | _ => cases h

/-! ### The invariant -/

/-- Completing an instruction leaves no vector register with bits above MAXVL (R25). -/
theorem exec_keeps_upperBitsClear {i : Instr} {s t : State} (hs : upperBitsClear s) (h : exec i s = .next t) :
    upperBitsClear t := by
  obtain ⟨-, hready, -⟩ := exec_eq_next h
  cases hd : dstVec i with
  | none =>
    obtain ⟨dst, src, len, rfl⟩ := dstVec_eq_none hd
    obtain ⟨v, rfl⟩ := exec_mmx_eq_next h
    simpa [upperBitsClear] using hs
  | some d =>
    obtain ⟨r, v, -, hv, rfl⟩ := exec_vector_eq_next hd h
    intro j
    simp only [readVec_advancePc, readVec_writeVec, advancePc_cfg, writeVec_cfg]
    split
    · exact hv.toNat_lt hready (hs r)
    · exact hs j

/-- Settles O42: memory, configuration and mark stay, the successor is inside the address range, and the one register
written gets no bits above MAXVL. -/
theorem everyStepKeepsTheInvariant : Obligations.EveryStepKeepsTheInvariant := by
  rintro s t ⟨hmem, hvec, -, hmark⟩ h
  obtain ⟨-, i, -, he⟩ := step_eq_next h
  obtain ⟨hspace, -, -, hpc, -, -, ht, hm, hc⟩ := exec_eq_next he
  refine ⟨ht ▸ hmem, exec_keeps_upperBitsClear hvec he, ?_, hm.trans hmark⟩
  rw [hc, hpc]
  exact hspace

/-! ### Frames -/

/-- Settles O14: the next state is the old one with the destination written and pc advanced. -/
theorem vectorFormsFrame : Obligations.VectorFormsFrame := by
  intro i s t d hd h
  obtain ⟨r, v, rfl, -, rfl⟩ := exec_vector_eq_next hd h
  refine ⟨fun j hj => ?_, fun _ => rfl, fun _ => rfl, fun _ => rfl, rfl, rfl, rfl, fun _ => rfl, rfl, rfl⟩
  have hne : r ≠ j := fun e => hj (congrArg Fin.val e.symm)
  simp [readVec_writeVec, hne]

/-- Bits 79:64 of the x87 registers after a write of an MMX register: all ones in that one, as before in the others
(R37, log entry 7). -/
theorem x87Hi_writeMm (s : State) (i j : Fin 8) (v : QWord) :
    (writeMm s i v).x87Hi.get j = if i = j then 0xFFFF#16 else s.x87Hi.get j := by
  simp only [writeMm_x87Hi, Vector.get_eq_getElem, Vector.getElem_set, Fin.val_inj]

/-- Settles O15: the next state is the old one with the destination and its x87 effects written and pc advanced. -/
theorem mmxFormFrame : Obligations.MmxFormFrame := by
  intro dst src len s t h
  obtain ⟨v, rfl⟩ := exec_mmx_eq_next h
  refine ⟨fun r hr => ?_, fun r hr => ?_, fun _ => rfl, fun _ => rfl, fun _ => rfl, fun _ => rfl, rfl, rfl⟩
  · simp [readMm_writeMm, hr.symm]
  · rw [advancePc_x87Hi, x87Hi_writeMm, if_neg hr.symm]

/-- Settles O16: these are the x87 effects of the one write of an MMX register. -/
theorem mmxFormMarksX87Registers : Obligations.MmxFormMarksX87Registers := by
  intro dst src len s t h
  obtain ⟨v, rfl⟩ := exec_mmx_eq_next h
  refine ⟨rfl, rfl, ?_⟩
  rw [advancePc_x87Hi, x87Hi_writeMm, if_pos rfl]

/-- Settles O40: a step that completes ran one instruction, which writes at most a register, x87 state and pc. -/
theorem stepsNeverWriteMemoryMaskOrGeneralRegisters : Obligations.StepsNeverWriteMemoryMaskOrGeneralRegisters := by
  intro s t h
  obtain ⟨hmark, i, -, he⟩ := step_eq_next h
  obtain ⟨-, -, -, -, hk, hg, hmem, hm, hc⟩ := exec_eq_next he
  exact ⟨hmem, hk, hg, hc, hm.trans hmark⟩

end Sys2Proof.Machine

/-! PROOFS. How long a decoded instruction is (R65, R90). -/

namespace Sys2Proof

open Machine

theorem isLegacyPrefix_of_mem_splitRun (bs : List Byte) : ∀ b ∈ (splitRun bs).1, isLegacyPrefix b = true := by
  induction bs with
  | nil => simp [splitRun]
  | cons b bs ih =>
    simp only [splitRun]
    by_cases hb : isLegacyPrefix b = true
    · simpa [hb] using ih
    · simp [hb]

/-- What the decoder accepts has a head that is not refused, and an opcode behind it (R88). -/
theorem decode_eq_instr {mode64 : Bool} {bs : List Byte} {i : Instr} (h : decode mode64 bs = .instr i) :
    ∃ p rex b rest, headOk mode64 p rex ∧ bs = p ++ rex.toList ++ b :: rest ∧
      decodeOpcode mode64 bs.length p rex b rest = .instr i := by
  have hrun := isLegacyPrefix_of_mem_splitRun bs
  have heq := splitRun_eq bs
  unfold decode at h
  simp only at h
  generalize (splitRun bs).1 = p at h hrun heq
  cases hs : (splitRun bs).2 with
  | nil => simp [hs] at h
  | cons b0 rest =>
    rw [hs] at heq
    simp only [hs] at h
    split at h; · cases h
    split at h; · cases h
    split at h; · cases h
    rename_i hrep hfs h67
    have hhead : ∀ rex : Option Byte, rex.all (fun b => mode64 && decide (b.extractLsb' 4 4 = 4#4)) = true →
        headOk mode64 p rex := fun rex hrex => by
      simp only [runHasFsGs, List.contains_iff_mem, Bool.or_eq_true, not_or] at hfs
      refine ⟨hrun, (runRepeats_eq_false p).1 (by simpa using hrep), hfs.1, hfs.2, fun hm => ?_, hrex⟩
      simpa [hm] using h67
    split at h
    · rename_i hrex
      cases rest with
      | nil => cases h
      | cons b1 rest => exact ⟨p, some b0, b1, rest, hhead _ (by simpa [isRex, field] using hrex), by simp [← heq], h⟩
    · exact ⟨p, none, b0, rest, hhead none rfl, by simp [← heq], h⟩

/-- Without LOCK, F2H and F3H a run of legacy bytes holds operand size and address size bytes and segment overrides
only (R64). -/
theorem run_length_le {p : List Byte} (hp : ∀ b ∈ p, isLegacyPrefix b = true) (hF0 : 0xF0#8 ∉ p) (hF2 : 0xF2#8 ∉ p)
    (hF3 : 0xF3#8 ∉ p) : p.length ≤ p.count 0x66#8 + p.count 0x67#8 + p.countP isSegment := by
  have kinds : ∀ b : Byte, isLegacyPrefix b = true → b ≠ 0xF0#8 → b ≠ 0xF2#8 → b ≠ 0xF3#8 →
      b = 0x66#8 ∨ b = 0x67#8 ∨ isSegment b = true := by decide
  induction p with
  | nil => simp
  | cons b p ih =>
    simp only [List.mem_cons, not_or] at hF0 hF2 hF3
    have hlen := ih (fun x hx => hp x (by simp [hx])) hF0.2 hF2.2 hF3.2
    simp only [List.length_cons, List.count_cons, List.countP_cons]
    rcases kinds b (hp b (by simp)) (Ne.symm hF0.1) (Ne.symm hF2.1) (Ne.symm hF3.1) with rfl | rfl | hseg
    · simp only [beq_self_eq_true, if_true]; omega
    · simp only [beq_self_eq_true, if_true]; omega
    · simp only [hseg, if_true]; omega

/-- ModRM and what belongs to it add one to six bytes to the `head` bytes before them (R67, R90). -/
theorem finish_eq_instr {c : AddrContext} {head total : Nat} {mk : BitVec 3 → RawRM → Nat → Instr} {bs : List Byte}
    {i : Instr} (ht : total = head + bs.length) (h : finish c total mk bs = .instr i) :
    ∃ reg rm n, 1 ≤ n ∧ n ≤ 6 ∧ i = mk reg rm (head + n) := by
  unfold finish at h
  split at h
  · cases h
  · rename_i reg rm rest hp
    obtain ⟨used, rfl, h1, h6, -⟩ := parseModRM_local hp
    have hlen : total - rest.length = head + used.length := by rw [ht, List.length_append]; omega
    exact ⟨reg, rm, used.length, h1, h6, by rw [← hlen]; exact (Decoded.instr.inj h).symm⟩

theorem lenOk_of_bounds (f : Form) {len : Nat} (lo : f.minLen ≤ len) (hi : len ≤ f.maxLen) : lenOk f len = true :=
  decide_eq_true ⟨lo, hi⟩

/-- A legacy form accepted behind an admitted head has a length of its form (R65, R68, R90). -/
theorem decodeLegacy_lenOk {mode64 : Bool} {total : Nat} {p : List Byte} {rex : Option Byte} {bs : List Byte}
    {i : Instr} (hh : headOk mode64 p rex) (ht : total = p.length + rex.toList.length + 1 + bs.length)
    (h : decodeLegacy mode64 total p rex bs = .instr i) : lenOk i.form i.len = true := by
  obtain ⟨hp, ⟨h66, h67, hseg⟩, -⟩ := hh
  have hrex : rex.toList.length ≤ 1 := by cases rex <;> simp
  cases bs with
  | nil => cases h
  | cons op bs =>
    simp only [decodeLegacy] at h
    split at h; · cases h
    split at h; · cases h
    split at h; · cases h
    rename_i hF0 hrep
    simp only [List.contains_iff_mem, Bool.or_eq_true, not_or] at hF0 hrep
    have hlen := run_length_le hp hF0 hrep.1 hrep.2
    obtain ⟨reg, rm, n, h1, h6, rfl⟩ :=
      finish_eq_instr (head := p.length + rex.toList.length + 2) (by rw [ht, List.length_cons]; omega) h
    by_cases hm : p.contains 0x66#8 = true
    · have hpos : 0 < p.length := List.length_pos_of_mem (List.contains_iff_mem.1 hm)
      have hL : 4 ≤ p.length + rex.toList.length + 2 + n ∧ p.length + rex.toList.length + 2 + n ≤ 12 := by omega
      rw [if_pos hm]; exact lenOk_of_bounds .sse hL.1 hL.2
    · have hcount : p.count 0x66#8 = 0 := List.count_eq_zero.2 (mt List.contains_iff_mem.2 hm)
      have hL : 3 ≤ p.length + rex.toList.length + 2 + n ∧ p.length + rex.toList.length + 2 + n ≤ 11 := by omega
      rw [if_neg hm]; exact lenOk_of_bounds .mmx hL.1 hL.2

/-- What may stand before C4H, C5H or 62H is at most a 67H byte and a segment override (R65, R66, R77, R81). -/
theorem length_le_of_not_illegalBeforeVex {mode64 : Bool} {p : List Byte} {rex : Option Byte} (hh : headOk mode64 p rex)
    (h : ¬ illegalBeforeVex p rex = true) : p.length + rex.toList.length ≤ 2 := by
  obtain ⟨hp, ⟨-, h67, hseg⟩, -⟩ := hh
  simp only [illegalBeforeVex, List.contains_iff_mem, Bool.or_eq_true, not_or] at h
  obtain ⟨⟨⟨⟨hrex, hF0⟩, h66⟩, hF2⟩, hF3⟩ := h
  have hlen := run_length_le hp hF0 hF2 hF3
  have hcount : p.count 0x66#8 = 0 := List.count_eq_zero.2 h66
  have hnone : rex = none := by simpa using hrex
  simp only [hnone, Option.toList_none, List.length_nil]
  omega

/-- A VEX form accepted behind an admitted head and `k` bytes of VEX fields has a length of its form (R77, R90). -/
theorem decodeVex_lenOk {mode64 : Bool} {total k : Nat} {p : List Byte} {rex : Option Byte} {v : VexFields}
    {bs : List Byte} {i : Instr} (hh : headOk mode64 p rex) (hk : k = 2 ∨ k = 3)
    (ht : total = p.length + rex.toList.length + k + bs.length)
    (h : decodeVex mode64 total p rex v bs = .instr i) : lenOk i.form i.len = true := by
  unfold decodeVex at h
  split at h; · cases h
  cases bs with
  | nil => cases h
  | cons op bs =>
    simp only at h
    split at h; · cases h
    split at h; · cases h
    rename_i hlegal
    have hhead := length_le_of_not_illegalBeforeVex hh hlegal
    split at h; · cases h
    obtain ⟨reg, rm, n, h1, h6, rfl⟩ :=
      finish_eq_instr (head := p.length + rex.toList.length + k + 1) (by rw [ht, List.length_cons]; omega) h
    have hlen : 4 ≤ p.length + rex.toList.length + k + 1 + n ∧ p.length + rex.toList.length + k + 1 + n ≤ 12 := by omega
    by_cases hl : v.l = true
    · rw [if_pos hl]; exact lenOk_of_bounds .vex256 hlen.1 hlen.2
    · rw [if_neg hl]; exact lenOk_of_bounds .vex128 hlen.1 hlen.2

/-- An EVEX form accepted behind an admitted head has a length of its form (R80, R90). -/
theorem decodeEvex_lenOk {mode64 : Bool} {total : Nat} {p : List Byte} {rex : Option Byte} {e : EvexFields}
    {bs : List Byte} {i : Instr} (hh : headOk mode64 p rex)
    (ht : total = p.length + rex.toList.length + 4 + bs.length)
    (h : decodeEvex mode64 total p rex e bs = .instr i) : lenOk i.form i.len = true := by
  unfold decodeEvex at h
  split at h; · cases h
  split at h; · cases h
  cases bs with
  | nil => cases h
  | cons op bs =>
    simp only at h
    split at h; · cases h
    split at h; · cases h
    rename_i hlegal
    have hhead := length_le_of_not_illegalBeforeVex hh hlegal
    split at h; · cases h
    split at h; · cases h
    obtain ⟨reg, rm, n, h1, h6, rfl⟩ :=
      finish_eq_instr (head := p.length + rex.toList.length + 5) (by rw [ht, List.length_cons]; omega) h
    have hlen : 6 ≤ p.length + rex.toList.length + 5 + n ∧ p.length + rex.toList.length + 5 + n ≤ 13 := by omega
    by_cases h0 : e.ll = 0#2
    · rw [if_pos h0]; exact lenOk_of_bounds .evex128 hlen.1 hlen.2
    by_cases h1 : e.ll = 1#2
    · rw [if_neg h0, if_pos h1]; exact lenOk_of_bounds .evex256 hlen.1 hlen.2
    · rw [if_neg h0, if_neg h1]; exact lenOk_of_bounds .evex512 hlen.1 hlen.2

/-- Whichever encoding follows an admitted head, what is accepted has a length of its form (R88, R90). -/
theorem decodeOpcode_lenOk {mode64 : Bool} {total : Nat} {p : List Byte} {rex : Option Byte} {b0 : Byte}
    {bs : List Byte} {i : Instr} (hh : headOk mode64 p rex) (ht : total = p.length + rex.toList.length + 1 + bs.length)
    (h : decodeOpcode mode64 total p rex b0 bs = .instr i) : lenOk i.form i.len = true := by
  unfold decodeOpcode at h
  split at h
  · exact decodeLegacy_lenOk hh ht h
  split at h
  · match bs, h with
    | b1 :: bs, h =>
      simp only at h
      split at h
      · exact decodeVex_lenOk (k := 2) hh (.inl rfl) (by rw [ht, List.length_cons]; omega) h
      · cases h
  split at h
  · match bs, h with
    | [_], h => simp only at h; split at h <;> cases h
    | b1 :: b2 :: bs, h =>
      simp only at h
      split at h
      · exact decodeVex_lenOk (k := 3) hh (.inr rfl) (by simp only [ht, List.length_cons]; omega) h
      · cases h
  split at h
  · match bs, h with
    | [_], h => simp only at h; split at h <;> cases h
    | [_, _], h => simp only at h; split at h <;> cases h
    | p0 :: p1 :: p2 :: bs, h =>
      simp only at h
      split at h
      · exact decodeEvex_lenOk hh (by simp only [ht, List.length_cons]; omega) h
      · cases h
  · cases h

/-- What the decoder accepts has a length that encodings of its form have (R90). -/
theorem decode_lenOk {mode64 : Bool} {bs : List Byte} {i : Instr} (h : decode mode64 bs = .instr i) :
    lenOk i.form i.len = true := by
  obtain ⟨p, rex, b, rest, hh, hbs, ho⟩ := decode_eq_instr h
  exact decodeOpcode_lenOk hh (by simp only [hbs, List.length_append, List.length_cons]; omega) ho

/-- Settles O41: pc moves by the length of the instruction run, which R90 bounds for whatever the decoder accepts. -/
theorem stepsAdvancePcByTheInstructionLength : Obligations.StepsAdvancePcByTheInstructionLength := by
  intro s t h
  obtain ⟨-, i, hd, he⟩ := step_eq_next h
  obtain ⟨-, -, -, hpc, -⟩ := exec_eq_next he
  obtain ⟨-, -, h3, h13⟩ := Laws.LengthBounds.of_lenOk _ _ (decode_lenOk hd)
  exact ⟨i, hd, h3, h13, hpc⟩

end Sys2Proof

/-! PROOFS. What the decoder is given where the bytes at pc run out, and the address range (R34, R142). -/

namespace Sys2Proof.Machine

/-- Bytes at pc that leave the decoder short lie inside the fetch window: their run of legacy bytes is listed in memory,
and at most eleven bytes follow it (log entry 12). -/
theorem length_le_fetchWindow_of_short {s : State} {bs : List Byte} {mode64 : Bool} (hc : codeAt s bs)
    (h : decode mode64 bs = .short) : bs.length ≤ fetchWindow s := by
  have hrun : (splitRun bs).1.length ≤ s.mem.length := by
    refine s.mem.nonzero_length_le _ s.pc.toNat (fun j hj => ?_) (splitRun_nonzero bs)
    have hpre : (splitRun bs).1 <+: bs := ⟨_, splitRun_eq bs⟩
    rw [(hc j (Nat.lt_of_lt_of_le hj hpre.length_le)).2, hpre.getElem hj]
  have := decode_short h
  unfold fetchWindow
  omega

/-- Where the bytes at pc end before one that cannot be fetched, the decoder is given just them (R142). -/
theorem bytesAtPc_eq {s : State} {bs : List Byte} (hc : codeAt s bs) (hw : bs.length ≤ fetchWindow s)
    (hstop : canFetch s.cfg (s.pc.toNat + bs.length) = false) : bytesAtPc s = bs := by
  obtain ⟨n, hn⟩ := Nat.exists_eq_add_of_le hw
  rw [bytesAtPc, hn, fetchBytes_append s bs n _ hc, fetchBytes_stop s n _ hstop, List.append_nil]

/-- Nothing outside the address range can be fetched (R34, R41). -/
theorem canFetch_of_not_inSpace {c : Config} {a : Nat} (h : inSpace c a 1 = false) : canFetch c a = false := by
  simp [canFetch, admits, h]

/-- An instruction whose successor is outside the address range is refused before anything else (R34, log entry 14). -/
theorem exec_of_not_inSpace {i : Instr} {s : State} (h : inSpace s.cfg (s.pc.toNat + i.len) 1 = false) :
    exec i s = .refused .pcRange := by
  obtain ⟨src, write, he, -⟩ := exec_shape i s
  rcases complete_cases i.form i.len src write s with ⟨-, hr⟩ | ⟨hin, -⟩
  · rw [he, hr]
  · rw [h] at hin; cases hin

/-- A step whose decoder needs a byte outside the address range is refused (R34, R142). -/
theorem step_of_short {s : State} (hm : s.mark = .clear) (hd : decode s.cfg.mode64 (bytesAtPc s) = .short)
    (h : inSpace s.cfg (s.pc.toNat + (bytesAtPc s).length) 1 = false) : step s = .refused .pcRange := by
  simp [step, hm, fetchDecode, hd, h]

/-- Settles O24: the successor's test comes first in every meaning, and a byte outside the address range ends what the
decoder is given just where it needs one more. -/
theorem leavingTheAddressRangeIsRefused : Obligations.LeavingTheAddressRangeIsRefused := by
  refine ⟨fun i s h => exec_of_not_inSpace h, fun s bs hm hc hd hout => ?_⟩
  have hbytes := bytesAtPc_eq hc (length_le_fetchWindow_of_short hc hd) (canFetch_of_not_inSpace hout)
  exact step_of_short hm (by rw [hbytes, hd]) (by rw [hbytes, hout])

end Sys2Proof.Machine

/-! PROOFS. The control-register bits behind `OsEnabled` and `TsClear` (R36). -/

namespace Sys2Proof.Machine

/-- A field is all ones exactly when each of its bits is 1. -/
theorem extractLsb'_eq_allOnes {w : Nat} (x : BitVec w) (lo n : Nat) :
    x.extractLsb' lo n = BitVec.allOnes n ↔ ∀ j < n, x.getLsbD (lo + j) = true := by
  constructor
  · intro h j hj
    simpa [hj] using congrArg (BitVec.getLsbD · j) h
  · intro h
    refine BitVec.eq_of_getLsbD_eq fun j hj => ?_
    simp [hj, h j hj]

/-- The SSE and AVX state components of XCR0 (R36). -/
theorem avxState_iff (x : QWord) : x.extractLsb' 1 2 = 3#2 ↔ x.getLsbD 1 = true ∧ x.getLsbD 2 = true := by
  rw [show 3#2 = BitVec.allOnes 2 from rfl, extractLsb'_eq_allOnes]
  simp only [Nat.forall_lt_succ_right, Nat.not_lt_zero, false_implies, implies_true, true_and]

/-- The opmask, ZMM_Hi256 and Hi16_ZMM state components of XCR0 (R36). -/
theorem avx512State_iff (x : QWord) :
    x.extractLsb' 5 3 = 7#3 ↔ x.getLsbD 5 = true ∧ x.getLsbD 6 = true ∧ x.getLsbD 7 = true := by
  rw [show 7#3 = BitVec.allOnes 3 from rfl, extractLsb'_eq_allOnes]
  simp only [Nat.forall_lt_succ_right, Nat.not_lt_zero, false_implies, implies_true, true_and, and_assoc]

/-- Settles O31: R36's table, with its two fields of XCR0 read bit by bit. -/
theorem osEnabledFollowsControlRegisters : Obligations.OsEnabledFollowsControlRegisters := by
  intro c
  refine ⟨?mmx, ?sse, ?vex, ?evex, ?ts⟩
  case mmx => simp [osEnabledOf, OsEnabled.on]
  case sse => simp [osEnabledOf, OsEnabled.on]
  case vex =>
    rintro f (rfl | rfl) <;> simp [osEnabledOf, OsEnabled.on, avxState_iff]
  case evex =>
    rintro f (rfl | rfl | rfl) <;> simp [osEnabledOf, OsEnabled.on, avxState_iff, avx512State_iff, and_assoc]
  case ts => simp [tsClearOf]

end Sys2Proof.Machine

/-! PROOFS. Memory operands and admission: little-endian reads, what a misaligned operand raises, where admitted accesses
lie and which predicates a list of grants can give (R41, R43, R47, R48, R50). -/

namespace Sys2Proof.Machine

/-! ### Little-endian reads -/

/-- Bit `k` of a little-endian number is bit `k % 8` of the byte `k / 8` addresses up (R43). -/
theorem Memory.testBit_readLE (m : Memory) (a n k : Nat) :
    (m.readLE a n).testBit k = (decide (k < 8 * n) && (m.byteAt (a + k / 8)).getLsbD (k % 8)) := by
  induction n generalizing a k with
  | zero => simp [readLE]
  | succ n ih =>
    rw [readLE, Nat.add_comm, show 256 = 2 ^ 8 from rfl, Nat.testBit_two_pow_mul_add _ (m.byteAt a).isLt]
    split
    next hk => simp [hk, show k < 8 * (n + 1) by omega, BitVec.testBit_toNat, Nat.mod_eq_of_lt, Nat.div_eq_of_lt]
    next hk =>
      have hdiv : a + 1 + (k - 8) / 8 = a + k / 8 := by omega
      have hmod : (k - 8) % 8 = k % 8 := by omega
      have hlt : k - 8 < 8 * n ↔ k < 8 * (n + 1) := by omega
      rw [ih, hdiv, hmod, decide_eq_decide.2 hlt]

/-- The same of a memory read, which keeps every bit of up to 64 bytes (R43). -/
theorem getLsbD_memRead (s : State) (a : QWord) {n : Nat} (hn : n ≤ 64) (k : Nat) :
    (memRead s a n).getLsbD k = (decide (k < 8 * n) && (s.mem.byteAt (a.toNat + k / 8)).getLsbD (k % 8)) := by
  have hwidth : k < 512 ∧ k < 8 * n ↔ k < 8 * n := by omega
  rw [memRead, BitVec.getLsbD_ofNat, Memory.testBit_readLE, ← Bool.and_assoc, ← Bool.decide_and,
    decide_eq_decide.2 hwidth]

/-- Settles O26: both clauses are read off the bits of a memory read. -/
theorem memoryReadsAreLittleEndian : Obligations.MemoryReadsAreLittleEndian := by
  intro s a n hn
  refine ⟨fun i hi => BitVec.eq_of_getLsbD_eq fun j hj => ?_, fun j hj => ?_⟩
  · have hbyte : (8 * i + j) / 8 = i := by omega
    have hbit : (8 * i + j) % 8 = j := by omega
    simp [getLsbD_memRead s a hn, hj, hbyte, hbit, show 8 * i + j < 8 * n by omega]
  · simp [getLsbD_memRead s a hn, Nat.not_lt.2 hj]

/-! ### Operands that cannot be read -/

/-- Outside form SSE every memory operand that is not ready is a `MemFault` (R50, R147). -/
theorem loadOperand_of_not_ready {f : Form} {a : QWord} {s : State} (hf : f ≠ .sse) (h : operandReady f a s = false) :
    loadOperand f a s = .error (.memFault s.pc a (formBytes f)) := by
  cases hl : loadOperand f a s with
  | ok v =>
    have hready := ((loadOperand_eq_ok f a s v).1 hl).1
    rw [h] at hready; cases hready
  | error e =>
    rcases loadOperand_eq_error hl with ⟨hsse, -⟩ | rfl
    · exact absurd hsse hf
    · rfl

/-- With alignment checking, a misaligned operand is not ready (R50, log entry 11). -/
theorem operandReady_of_misaligned {f : Form} {a : QWord} {s : State} (hac : s.cfg.acOff = false)
    (h : ¬ formBytes f ∣ a.toNat) : operandReady f a s = false := by
  simp [operandReady, hac, mt Nat.dvd_of_mod_eq_zero h]

/-- An instruction that nothing stops before its memory operand raises the operand's fault (R149). -/
theorem exec_of_loadOperand_error {i : Instr} {m : MemExpr} {s : State} {e : Fault}
    (hin : inSpace s.cfg (s.pc.toNat + i.len) 1 = true) (hready : formReady i.form s = true)
    (hm : i.memOperand = some m) (he : loadOperand i.form (effAddr m i.len s) s = .error e) : exec i s = .fault e := by
  obtain ⟨src, write, hexec, -, hsrc, -⟩ := exec_shape i s
  rw [hexec, hsrc m hm, he, complete, hin, (entryFault_eq_none _ _).2 hready]
  rfl

/-- Settles O23: a misaligned operand is not ready, and outside form SSE that is a `MemFault`. -/
theorem alignmentCheckingMakesMisalignedOperandsFault : Obligations.AlignmentCheckingMakesMisalignedOperandsFault := by
  intro i m s hin hready hm hsse hac hmis
  exact exec_of_loadOperand_error hin hready hm (loadOperand_of_not_ready hsse (operandReady_of_misaligned hac hmis))

/-! ### The address range -/

/-- The address range in 64-bit mode: one of the two halves of the canonical space (R47, R48). -/
theorem inSpace_iff_of_mode64 {c : Config} (h : c.mode64 = true) (a n : Nat) :
    inSpace c a n = true ↔ a + n ≤ 2 ^ canonicalBits c ∨ 2 ^ 64 - 2 ^ canonicalBits c ≤ a ∧ a + n ≤ 2 ^ 64 := by
  simp [inSpace, h]

/-- The address range outside 64-bit mode (R40, R48). -/
theorem inSpace_iff_of_not_mode64 {c : Config} (h : c.mode64 = false) (a n : Nat) :
    inSpace c a n = true ↔ a + n ≤ 2 ^ 32 := by
  simp [inSpace, h]

/-- Half the canonical space is no more than the whole address space (R47). -/
theorem canonicalBits_le (c : Config) : canonicalBits c ≤ 64 := by
  unfold canonicalBits
  split <;> decide

/-- No access inside the address range runs past its top (R48). -/
theorem le_top_of_inSpace {c : Config} {a n : Nat} (h : inSpace c a n = true) :
    a + n ≤ 2 ^ (if c.mode64 then 64 else 32) := by
  cases hm : c.mode64 with
  | false => exact (inSpace_iff_of_not_mode64 hm a n).1 h
  | true =>
    rcases (inSpace_iff_of_mode64 hm a n).1 h with hlow | ⟨-, htop⟩
    · exact hlow.trans (Nat.pow_le_pow_right (by decide) (canonicalBits_le c))
    · exact htop

/-- In 64-bit mode the bits above half the canonical space are all 0 or all 1 in each address of an access inside the
address range (R47). -/
theorem div_two_pow_canonicalBits_of_inSpace {c : Config} {a n i : Nat} (hm : c.mode64 = true)
    (h : inSpace c a n = true) (hi : i < n) :
    (a + i) / 2 ^ canonicalBits c = 0 ∨ (a + i) / 2 ^ canonicalBits c = 2 ^ (64 - canonicalBits c) - 1 := by
  have hsplit : 2 ^ (64 - canonicalBits c) * 2 ^ canonicalBits c = 2 ^ 64 := by
    rw [← Nat.pow_add, Nat.sub_add_cancel (canonicalBits_le c)]
  rcases (inSpace_iff_of_mode64 hm a n).1 h with hlow | ⟨hbase, htop⟩
  · exact .inl (Nat.div_eq_of_lt (by omega))
  · refine .inr (Nat.div_eq_of_lt_le ?_ ?_)
    · rw [Nat.sub_mul, hsplit, Nat.one_mul]
      omega
    · rw [Nat.sub_add_cancel Nat.one_le_two_pow, hsplit]
      omega

/-- Settles O29: an admitted access is inside the address range, and so is each address it touches. -/
theorem admittedAccessesStayInCanonicalSpace : Obligations.AdmittedAccessesStayInCanonicalSpace := by
  intro c kind a n i hadm hi
  have hin := ((admits_iff c kind a n).1 hadm).1
  refine ⟨Nat.lt_of_lt_of_le (Nat.add_lt_add_left hi a) (le_top_of_inSpace hin), fun hm hla => ?_, fun hm hla => ?_⟩
  · simpa [canonicalBits, hla] using div_two_pow_canonicalBits_of_inSpace hm hin hi
  · simpa [canonicalBits, hla] using div_two_pow_canonicalBits_of_inSpace hm hin hi

/-! ### Grants for any predicate -/

/-- One grant for each kind, size up to `maxSize` and address up to `top` where an access is wanted. -/
def grantsFor (wanted : AccessKind → Nat → Nat → Bool) (maxSize top : Nat) : List Grant :=
  [AccessKind.fetch, .read].flatMap fun kind =>
    (List.range (maxSize + 1)).flatMap fun n =>
      ((List.range (top + 1)).filter (wanted kind · n)).map fun a => ⟨kind, n, a, 1⟩

/-- These grants give single addresses, and just the wanted ones (R41, log entry 10). -/
theorem mem_grantsFor (wanted : AccessKind → Nat → Nat → Bool) (maxSize top : Nat) (g : Grant) :
    g ∈ grantsFor wanted maxSize top ↔
      g.size ≤ maxSize ∧ g.first ≤ top ∧ wanted g.kind g.first g.size = true ∧ g.count = 1 := by
  obtain ⟨kind, n, a, count⟩ := g
  cases kind with
  | fetch => simp [grantsFor, and_assoc, eq_comm (a := count)]
  | read => simp [grantsFor, and_assoc, eq_comm (a := count)]

/-- What a configuration with these grants admits, as far as sizes and addresses are listed (R41). -/
theorem admits_grantsFor (c : Config) (wanted : AccessKind → Nat → Nat → Bool) {maxSize top : Nat} (kind : AccessKind)
    {a n : Nat} (hn : n ≤ maxSize) (ha : inSpace c a n = true → a ≤ top) :
    admits { c with grants := grantsFor wanted maxSize top } kind a n = (inSpace c a n && wanted kind a n) := by
  rw [Bool.eq_iff_iff, admits_iff, Bool.and_eq_true]
  refine and_congr_right fun hin => ⟨?_, fun hw => ?_⟩
  · rintro ⟨g, hg, rfl, rfl, hlo, hhi⟩
    obtain ⟨-, -, hw, hcount⟩ := (mem_grantsFor ..).1 hg
    rwa [show a = g.first by omega]
  · exact ⟨⟨kind, n, a, 1⟩, (mem_grantsFor ..).2 ⟨hn, ha hin, hw, rfl⟩, rfl, rfl, Nat.le_refl a, Nat.lt_succ_self a⟩

/-- Settles O30: one grant for each wanted access of at most 64 bytes, at the finitely many addresses of either mode. -/
theorem anyAdmissionPredicateCanBeGiven : Obligations.AnyAdmissionPredicateCanBeGiven := by
  intro c wanted
  refine ⟨grantsFor wanted 64 (2 ^ (if c.mode64 then 64 else 32)), fun kind a n hn => ?_⟩
  exact admits_grantsFor c wanted kind hn fun hin => Nat.le_of_add_right_le (le_top_of_inSpace hin)

end Sys2Proof.Machine

/-! PROOFS. Where the decoder goes on behind an admitted head, and when it goes on to ModRM (R65 to R69, R77 to R83,
R88). -/

namespace Sys2Proof

open Machine

theorem vexByteOk_iff (mode64 : Bool) (b : Byte) : vexByteOk mode64 b = true ↔ startsVex mode64 b := by
  simp [vexByteOk, field]

/-- None of the four first opcode bytes goes on the run or is a REX byte (R64, R66, R88). -/
theorem decode_opcode {mode64 : Bool} {p : List Byte} {rex : Option Byte} (h : headOk mode64 p rex) {b : Byte}
    (hb : b ∈ [0x0F#8, 0xC4#8, 0xC5#8, 0x62#8]) (rest : List Byte) :
    decode mode64 (p ++ rex.toList ++ b :: rest) =
      decodeOpcode mode64 (p ++ rex.toList ++ b :: rest).length p rex b rest := by
  have hkind : isLegacyPrefix b = false ∧ b.extractLsb' 4 4 ≠ 4#4 := by
    simp only [List.mem_cons, List.not_mem_nil, or_false] at hb
    obtain rfl | rfl | rfl | rfl := hb <;> decide
  obtain ⟨hleg, hrex⟩ := hkind
  exact decode_head h (fun _ => ⟨hleg, fun _ => hrex⟩) rest

theorem decode_opcode_noRex {mode64 : Bool} {p : List Byte} (h : headOk mode64 p none) {b : Byte}
    (hb : b ∈ [0x0F#8, 0xC4#8, 0xC5#8, 0x62#8]) (rest : List Byte) :
    decode mode64 (p ++ b :: rest) = decodeOpcode mode64 (p ++ b :: rest).length p none b rest := by
  simpa using decode_opcode h hb rest

theorem decodeOpcode_legacy (mode64 : Bool) (total : Nat) (p : List Byte) (rex : Option Byte) (bs : List Byte) :
    decodeOpcode mode64 total p rex 0x0F#8 bs = decodeLegacy mode64 total p rex bs := rfl

theorem decodeOpcode_vexTwo {mode64 : Bool} {b1 : Byte} (h : startsVex mode64 b1) (total : Nat) (p : List Byte)
    (rex : Option Byte) (bs : List Byte) :
    decodeOpcode mode64 total p rex 0xC5#8 (b1 :: bs) = decodeVex mode64 total p rex (vexTwo b1) bs :=
  if_pos ((vexByteOk_iff mode64 b1).2 h)

theorem decodeOpcode_vexThree {mode64 : Bool} {b1 : Byte} (h : startsVex mode64 b1) (b2 : Byte) (total : Nat)
    (p : List Byte) (rex : Option Byte) (bs : List Byte) :
    decodeOpcode mode64 total p rex 0xC4#8 (b1 :: b2 :: bs) = decodeVex mode64 total p rex (vexThree b1 b2) bs :=
  if_pos ((vexByteOk_iff mode64 b1).2 h)

theorem decodeOpcode_evex {mode64 : Bool} {p0 : Byte} (h : startsVex mode64 p0) (p1 p2 : Byte) (total : Nat)
    (p : List Byte) (rex : Option Byte) (bs : List Byte) :
    decodeOpcode mode64 total p rex 0x62#8 (p0 :: p1 :: p2 :: bs) =
      decodeEvex mode64 total p rex (evexOf p0 p1 p2) bs :=
  if_pos ((vexByteOk_iff mode64 p0).2 h)

/-- A legacy form without LOCK, F2H and F3H goes on with ModRM (R65, R68, R69). -/
theorem decodeLegacy_eq_finish {p : List Byte} (hF0 : 0xF0#8 ∉ p) (hF2 : 0xF2#8 ∉ p) (hF3 : 0xF3#8 ∉ p) (mode64 : Bool)
    (total : Nat) (rex : Option Byte) (bs : List Byte) :
    decodeLegacy mode64 total p rex (0xF5#8 :: bs) =
      finish ⟨mode64, addrSize mode64 p, rexBit rex 1, rexBit rex 0, 1⟩ total
        (fun reg rm len =>
          if p.contains 0x66#8 then .pmaddwdSse (num4 (rexBit rex 2) reg) (rm.toRM (num4 (rexBit rex 0))) len
          else .pmaddwdMmx (num3 reg) (rm.toRM num3) len) bs := by
  simp [decodeLegacy, hF0, hF2, hF3]

/-- A legal VEX encoding that selects VPMADDWD and names registers of the mode goes on with ModRM (R77 to R79). -/
theorem decodeVex_eq_finish {mode64 : Bool} {p : List Byte} {rex : Option Byte} (r x : Bool) {b : Bool} {v : BitVec 4}
    (l : Bool) (hlegal : illegalBeforeVex p rex = false) (hlow : mode64 = false → b = false ∧ v.getLsbD 3 = false)
    (total : Nat) (bs : List Byte) :
    decodeVex mode64 total p rex ⟨r, x, b, 1#5, v, l, 1#2⟩ (0xF5#8 :: bs) =
      finish ⟨mode64, addrSize mode64 p, x, b, 1⟩ total
        (fun reg rm len =>
          if l then .vpmaddwdVex256 (num4 r reg) (numV v) (rm.toRM (num4 b)) len
          else .vpmaddwdVex128 (num4 r reg) (numV v) (rm.toRM (num4 b)) len) bs := by
  have hhigh : (!mode64 && (b || v.getLsbD 3)) = false := by cases mode64 <;> simp_all
  simp only [decodeVex, hlegal, hhigh]
  rfl

/-- A legal EVEX encoding that selects VPMADDWD and names registers of the mode goes on with ModRM (R80 to R83). -/
theorem decodeEvex_eq_finish {mode64 : Bool} {p : List Byte} {rex : Option Byte} (r x : Bool) {b rHigh z vHigh : Bool}
    {v : BitVec 4} {ll : BitVec 2} {aaa : BitVec 3} (hlegal : illegalBeforeVex p rex = false) (hll : ll ≠ 3#2)
    (hmask : ¬ (z = true ∧ aaa = 0#3))
    (hlow : mode64 = false → b = false ∧ rHigh = false ∧ vHigh = false ∧ v.getLsbD 3 = false) (total : Nat)
    (bs : List Byte) :
    decodeEvex mode64 total p rex ⟨r, x, b, rHigh, false, 1#3, v, true, 1#2, z, ll, false, vHigh, aaa⟩ (0xF5#8 :: bs) =
      finish ⟨mode64, addrSize mode64 p, x, b, dispFactor ll⟩ total
        (fun reg rm len =>
          let dst := num5 rHigh r reg
          let src1 := numV5 vHigh v
          let src2 := rm.toRM (num5 x b)
          if ll = 0#2 then .vpmaddwdEvex128 dst src1 src2 (num3 aaa) z len
          else if ll = 1#2 then .vpmaddwdEvex256 dst src1 src2 (num3 aaa) z len
          else .vpmaddwdEvex512 dst src1 src2 (num3 aaa) z len) bs := by
  have hhigh : (!mode64 && (b || rHigh || vHigh || v.getLsbD 3)) = false := by cases mode64 <;> simp_all
  have hcomb : ¬ (ll = 3#2 ∨ false = true ∨ (z = true ∧ aaa = 0#3)) := by simp only [hll, hmask]; decide
  simp only [decodeEvex, hlegal, hhigh, if_neg hcomb]
  rfl

end Sys2Proof

/-! PROOFS. Decoding inverts encoding (R62 to R90): what the encoder writes, part by part, and what the decoder reads
back. -/

namespace Sys2Proof

open Machine

/-! ### Register numbers and bytes of fields -/

@[simp] theorem field_mod_byte233 (a : BitVec 2) (b c : BitVec 3) : field (byte233 a b c) 6 2 = a := by
  revert a b c; decide

@[simp] theorem field_reg_byte233 (a : BitVec 2) (b c : BitVec 3) : field (byte233 a b c) 3 3 = b := by
  revert a b c; decide

@[simp] theorem field_rm_byte233 (a : BitVec 2) (b c : BitVec 3) : field (byte233 a b c) 0 3 = c := by
  revert a b c; decide

theorem num3_low3 : ∀ r : Fin 8, num3 (low3 r) = r := by decide

theorem num4_low3 : ∀ r : Fin 16, num4 (decide (8 ≤ r.val)) (low3 r) = r := by decide

theorem num5_low3 : ∀ r : Fin 32, num5 (decide (16 ≤ r.val)) (decide (r.val % 16 ≥ 8)) (low3 r) = r := by decide

theorem low3_eq_iff (r : Nat) {n : Nat} (hn : n < 8) : low3 r = BitVec.ofNat 3 n ↔ r % 8 = n := by
  rw [low3, ← BitVec.toNat_inj, BitVec.toNat_ofNat, BitVec.toNat_ofNat, Nat.mod_eq_of_lt (a := n) (b := 2 ^ 3) hn]

/-! ### Displacements -/

/-- The four displacement bytes give the displacement back (R72). -/
theorem parseDisp_dispBytes (n : Nat) {d : Int} (lo : -2147483648 ≤ d) (hi : d < 2147483648) :
    parseDisp n .four (dispBytes d) = some (d, []) := by
  have hjoin (v : BitVec 32) :
      v.extractLsb' 24 8 ++ v.extractLsb' 16 8 ++ v.extractLsb' 8 8 ++ v.extractLsb' 0 8 = v := by
    rw [BitVec.extractLsb'_append_extractLsb'_eq_extractLsb' (start₁ := 16) (start₂ := 24) rfl,
      BitVec.extractLsb'_append_extractLsb'_eq_extractLsb' (start₁ := 8) (start₂ := 16) rfl,
      BitVec.extractLsb'_append_extractLsb'_eq_extractLsb' (start₁ := 0) (start₂ := 8) rfl]
    exact BitVec.extractLsb'_eq_self
  simp only [dispBytes, parseDisp, hjoin]
  rw [BitVec.toInt_ofInt, Int.bmod_eq_of_le (by omega) (by omega)]

/-- `mod` = 00b is written for no base whose low bits say 'no base' there (R70, R71). -/
theorem encodeDisp_has_base (wide : Bool) (n base : Nat) (d : Int) :
    ¬ (low3 base = 5#3 ∧ (encodeDisp wide n base d).1 = 0#2) := by
  rintro ⟨hbase, hmod⟩
  have h5 : base % 8 = 5 := (low3_eq_iff base (by decide)).1 hbase
  unfold encodeDisp at hmod
  split at hmod
  · simp_all
  · split at hmod <;> simp at hmod

theorem encodeDisp_mod_ne_three (wide : Bool) (n base : Nat) (d : Int) : (encodeDisp wide n base d).1 ≠ 3#2 := by
  unfold encodeDisp
  split
  · simp
  · split <;> simp

/-- Whichever displacement the encoder writes, the decoder reads back (R70, R72, R83). -/
theorem parseDisp_encodeDisp (wide : Bool) (n base : Nat) {d : Int} (lo : -2147483648 ≤ d) (hi : d < 2147483648) :
    parseDisp n (dispSize (encodeDisp wide n base d).1 false) (encodeDisp wide n base d).2 = some (d, []) := by
  unfold encodeDisp
  split
  next h =>
    simp only [Bool.and_eq_true, decide_eq_true_eq] at h
    simp [dispSize, parseDisp, h.1.2]
  next =>
    split
    next h =>
      simp only [Bool.and_eq_true, decide_eq_true_eq] at h
      obtain ⟨⟨-, hmul⟩, hlo, hhi⟩ := h
      have hbyte : (BitVec.ofInt 8 (d / n)).toInt = d / n := by
        rw [BitVec.toInt_ofInt, Int.bmod_eq_of_le (by omega) (by omega)]
      simp [dispSize, parseDisp, hbyte, Int.ediv_mul_cancel_of_emod_eq_zero hmul]
    next => exact parseDisp_dispBytes n lo hi

/-! ### The operand of ModRM:r/m -/

/-- ModRM with a SIB byte after it (R71). -/
theorem parseModRM_sib (c : AddrContext) {mod : BitVec 2} (hmod : mod ≠ 3#2) (reg : BitVec 3) (scale : BitVec 2)
    (index base : BitVec 3) (bs : List Byte) :
    parseModRM c (byte233 mod reg 4#3 :: byte233 scale index base :: bs) =
      (parseDisp c.n (dispSize mod (decide (base = 5#3 ∧ mod = 0#2))) bs).map fun d =>
        (reg, .mem ⟨if base = 5#3 ∧ mod = 0#2 then none else some (num4 c.b base),
          if num4 c.x index = 4 then none else some ⟨num4 c.x index, scale.toFin⟩, d.1, false, c.asz⟩, d.2) := by
  simp [parseModRM, parseMem, hmod, Function.comp_def]

/-- ModRM of a memory operand without SIB (R70, R73). -/
theorem parseModRM_noSib (c : AddrContext) {mod : BitVec 2} (hmod : mod ≠ 3#2) (reg : BitVec 3) {rm : BitVec 3}
    (hrm : rm ≠ 4#3) (bs : List Byte) :
    parseModRM c (byte233 mod reg rm :: bs) =
      (parseDisp c.n (dispSize mod (decide (rm = 5#3 ∧ mod = 0#2))) bs).map fun d =>
        (reg, .mem ⟨if rm = 5#3 ∧ mod = 0#2 then none else some (num4 c.b rm), none, d.1,
          decide (rm = 5#3 ∧ mod = 0#2) && c.mode64, c.asz⟩, d.2) := by
  simp [parseModRM, parseMem, hmod, hrm, Function.comp_def]

/-- The conditions on a memory expression, one by one (R71 to R74, R85). -/
theorem MemExpr.wf_iff (mode64 : Bool) (m : MemExpr) :
    m.wf mode64 = true ↔
      (∀ b, m.base = some b → gprOk mode64 b = true) ∧
      (∀ x, m.index = some x → gprOk mode64 x.reg = true ∧ x.reg ≠ 4) ∧
      (-2147483648 ≤ m.disp ∧ m.disp < 2147483648) ∧
      (m.rip = true → mode64 = true ∧ m.base = none ∧ m.index = none) ∧
      (mode64 = false → m.asz = .a32) := by
  obtain ⟨base, index, disp, rip, asz⟩ := m
  cases rip <;> cases mode64 <;>
    simp [MemExpr.wf, gprOk, and_assoc, Option.all_eq_true, Fin.ext_iff]

/-- The operand of ModRM:r/m as the decoder reads it, before its register number is extended (R67). -/
def RM.raw {k : Nat} : RM k → RawRM
  | .reg r => .reg (low3 r)
  | .mem m => .mem m

theorem toRM_raw_num3 (rm : RM 8) : rm.raw.toRM num3 = rm := by
  cases rm with
  | reg r => exact congrArg RM.reg (num3_low3 r)
  | mem m => rfl

theorem toRM_raw_num4 (rm : RM 16) : rm.raw.toRM (num4 (extB rm)) = rm := by
  cases rm with
  | reg r =>
    have hmod : r.val % 16 = r.val := Nat.mod_eq_of_lt r.isLt
    simpa [RM.raw, RawRM.toRM, extB, hmod] using num4_low3 r
  | mem m => rfl

theorem toRM_raw_num5 (rm : RM 32) : rm.raw.toRM (num5 (extX rm) (extB rm)) = rm := by
  cases rm with
  | reg r => exact congrArg RM.reg (num5_low3 r)
  | mem m => rfl

theorem parseModRM_encodeMem {k : Nat} {mode64 : Bool} (wide : Bool) (n : Nat) (reg : BitVec 3) {m : MemExpr}
    (hwf : m.wf mode64 = true) :
    parseModRM ⟨mode64, m.asz, extX (RM.mem m : RM k), extB (RM.mem m : RM k), n⟩ (encodeMem mode64 wide n reg m) =
      some (reg, .mem m, []) := by
  obtain ⟨base, index, disp, rip, asz⟩ := m
  obtain ⟨-, hindex, ⟨lo, hi⟩, hrip, -⟩ := (MemExpr.wf_iff mode64 _).1 hwf
  simp only at hindex lo hi hrip
  have hzero : 0#2 ≠ 3#2 := by decide
  have hfour := parseDisp_dispBytes n lo hi
  have hnone : num4 false 4#3 = 4 := rfl
  cases base with
  | none =>
    cases index with
    | none =>
      cases rip with
      | true =>
        obtain ⟨rfl, -⟩ := hrip rfl
        simp [encodeMem, parseModRM_noSib _ hzero, dispSize, hfour]
      | false =>
        cases mode64 with
        | false => simp [encodeMem, parseModRM_noSib _ hzero, dispSize, hfour]
        | true => simp [encodeMem, parseModRM_sib _ hzero, dispSize, hfour, extX, hnone]
    | some x =>
      obtain ⟨-, h4⟩ := hindex x rfl
      obtain rfl : rip = false := by simpa using hrip
      simp [encodeMem, parseModRM_sib _ hzero, dispSize, hfour, num4_low3, extX, h4]
  | some b =>
    have hdisp := parseDisp_encodeDisp wide n b lo hi
    have hmod := encodeDisp_mod_ne_three wide n b disp
    have hbase := eq_false (encodeDisp_has_base wide n b disp)
    obtain rfl : rip = false := by simpa using hrip
    have hb : num4 (extB (RM.mem ⟨some b, index, disp, false, asz⟩ : RM k)) (low3 b) = b := num4_low3 b
    cases index with
    | none =>
      have hlow : low3 b = 4#3 ↔ b.val % 8 = 4 := low3_eq_iff b (by decide)
      by_cases h4 : b.val % 8 = 4
      · simp [encodeMem, h4, parseModRM_sib _ hmod, hbase, hdisp, hb, extX, hnone]
      · simp [encodeMem, h4, parseModRM_noSib _ hmod _ (mt hlow.1 h4), hbase, hdisp, hb]
    | some x =>
      obtain ⟨-, h4⟩ := hindex x rfl
      simp [encodeMem, parseModRM_sib _ hmod, hbase, hdisp, hb, num4_low3, extX, h4]

/-! ### The legacy bytes that the encoder writes (R45, R64, R65, R74) -/

/-- A segment override, 67H and 66H, each if wanted. -/
def writtenRun (seg : Option Segment) (size opsize : Bool) : List Byte :=
  (seg.map segmentByte).toList ++ (if size then [0x67#8] else []) ++ (if opsize then [0x66#8] else [])

/-- The runs that the encoder writes are twenty lists of bytes. -/
theorem forall_writtenRun {P : Option Segment → Bool → Bool → Prop}
    (h : ∀ seg ∈ [none, some Segment.cs, some .ss, some .ds, some .es], ∀ size opsize, P seg size opsize)
    (seg : Option Segment) (size opsize : Bool) : P seg size opsize := by
  refine h seg ?_ size opsize
  cases seg with
  | none => simp
  | some s => cases s <;> simp

theorem isLegacyPrefix_of_mem_writtenRun (seg : Option Segment) (size opsize : Bool) :
    ∀ b ∈ writtenRun seg size opsize, isLegacyPrefix b = true :=
  List.all_eq_true.1 <| forall_writtenRun
    (P := fun seg size opsize => (writtenRun seg size opsize).all isLegacyPrefix = true) (by decide) seg size opsize

theorem runOnce_writtenRun : ∀ seg size opsize, runOnce (writtenRun seg size opsize) := forall_writtenRun (by decide)

/-- No run that the encoder writes has LOCK, F2H, F3H, FS or GS in it. -/
theorem not_mem_writtenRun : ∀ seg size opsize, 0xF0#8 ∉ writtenRun seg size opsize ∧
    0xF2#8 ∉ writtenRun seg size opsize ∧ 0xF3#8 ∉ writtenRun seg size opsize ∧
    0x64#8 ∉ writtenRun seg size opsize ∧ 0x65#8 ∉ writtenRun seg size opsize :=
  forall_writtenRun (by decide)

theorem contains_66_writtenRun : ∀ seg size opsize, (writtenRun seg size opsize).contains 0x66#8 = opsize :=
  forall_writtenRun (by decide)

theorem contains_67_writtenRun : ∀ seg size opsize, (writtenRun seg size opsize).contains 0x67#8 = size :=
  forall_writtenRun (by decide)

theorem illegalBeforeVex_writtenRun :
    ∀ seg size opsize, illegalBeforeVex (writtenRun seg size opsize) none = opsize :=
  forall_writtenRun (by decide)

/-- A memory operand with 32-bit addresses takes 67H in 64-bit mode (R74). -/
def RM.needs67 {k : Nat} (mode64 : Bool) : RM k → Bool
  | .reg _ => false
  | .mem m => mode64 && decide (m.asz = .a32)

theorem segPrefix_append_sizePrefix {k : Nat} (mode64 : Bool) (sp : Spelling) (rm : RM k) :
    segPrefix sp ++ sizePrefix mode64 rm = writtenRun sp.seg (rm.needs67 mode64) false := by
  cases rm with
  | reg r => simp [segPrefix, sizePrefix, writtenRun, RM.needs67]
  | mem m => simp [segPrefix, sizePrefix, writtenRun, RM.needs67]

theorem writtenRun_opsize (seg : Option Segment) (size : Bool) :
    writtenRun seg size true = writtenRun seg size false ++ [0x66#8] := by
  simp [writtenRun]

theorem mode64_of_needs67 {k : Nat} {mode64 : Bool} {rm : RM k} (h : rm.needs67 mode64 = true) : mode64 = true := by
  cases rm with
  | reg r => simp [RM.needs67] at h
  | mem m => simp_all [RM.needs67]

theorem headOk_writtenRun {k : Nat} {mode64 : Bool} (rm : RM k) (seg : Option Segment) (opsize : Bool)
    {rex : Option Byte} (hrex : rex.all (fun b => mode64 && decide (b.extractLsb' 4 4 = 4#4)) = true) :
    headOk mode64 (writtenRun seg (rm.needs67 mode64) opsize) rex := by
  obtain ⟨-, -, -, h64, h65⟩ := not_mem_writtenRun seg (rm.needs67 mode64) opsize
  refine ⟨isLegacyPrefix_of_mem_writtenRun _ _ _, runOnce_writtenRun _ _ _, h64, h65,
    fun h => mode64_of_needs67 (rm := rm) ?_, hrex⟩
  rw [← contains_67_writtenRun seg (rm.needs67 mode64) opsize]
  exact List.contains_iff_mem.2 h

theorem addrSize_writtenRun {k : Nat} {mode64 : Bool} {m : MemExpr} (hwf : m.wf mode64 = true) (seg : Option Segment)
    (opsize : Bool) : addrSize mode64 (writtenRun seg ((RM.mem m : RM k).needs67 mode64) opsize) = m.asz := by
  obtain ⟨-, -, -, -, h32⟩ := (MemExpr.wf_iff mode64 m).1 hwf
  simp only [addrSize, contains_67_writtenRun, RM.needs67]
  cases mode64 with
  | false => simp [h32 rfl]
  | true => cases m.asz <;> rfl

/-- ModRM and what follows it give the operand back (R67, R70 to R74). -/
theorem finish_encodeRM {k nreg : Nat} {mode64 : Bool} {rm : RM k} (hwf : rm.wf mode64 nreg = true) (wide : Bool) (n : Nat)
    (reg : BitVec 3) (seg : Option Segment) (opsize : Bool) (total : Nat) (mk : BitVec 3 → RawRM → Nat → Instr) :
    finish ⟨mode64, addrSize mode64 (writtenRun seg (rm.needs67 mode64) opsize), extX rm, extB rm, n⟩ total mk
      (encodeRM mode64 wide n reg rm) = .instr (mk reg rm.raw total) := by
  cases rm with
  | reg r => simp [finish, encodeRM, parseModRM, RM.raw]
  | mem m =>
    rw [addrSize_writtenRun hwf, finish, encodeRM, parseModRM_encodeMem wide n reg hwf]
    rfl

/-- Outside 64-bit mode the extension bits of an operand are 0 (R32, R66, R80). -/
theorem ext_eq_false {k : Nat} {rm : RM k} (hwf : rm.wf false 8 = true) : extX rm = false ∧ extB rm = false := by
  cases rm with
  | reg r =>
    have hr : r.val < 8 := by simpa [RM.wf] using hwf
    simp [extX, extB]; omega
  | mem m =>
    obtain ⟨hbase, hindex, -⟩ := (MemExpr.wf_iff false m).1 hwf
    simp only [gprOk, Bool.false_or, decide_eq_true_eq] at hbase hindex
    refine ⟨?_, ?_⟩
    · cases h : m.index <;> simp_all [extX]
    · cases h : m.base <;> simp_all [extB]

/-! ### The legacy forms -/

/-- The REX byte that the encoder writes, if any (R66). -/
def rexOf (mode64 : Bool) (sp : Spelling) (r x b : Bool) : Option Byte :=
  if mode64 && (sp.rex || sp.w || r || x || b) then some (byteOfBits false true false false sp.w r x b) else none

theorem rexBytes_eq (mode64 : Bool) (sp : Spelling) (r x b : Bool) :
    rexBytes mode64 sp r x b = (rexOf mode64 sp r x b).toList := by
  unfold rexBytes rexOf
  split <;> rfl

theorem rexOf_all (mode64 : Bool) (sp : Spelling) (r x b : Bool) :
    (rexOf mode64 sp r x b).all (fun b => mode64 && decide (b.extractLsb' 4 4 = 4#4)) = true := by
  have hrex : ∀ w r x b, (byteOfBits false true false false w r x b).extractLsb' 4 4 = 4#4 := by decide
  unfold rexOf
  split
  next h =>
    simp only [Bool.and_eq_true] at h
    simp only [Option.all_some, h.1, hrex]
    rfl
  next => rfl

theorem rexBit_rexOf {mode64 r x b : Bool} (h : mode64 = false → r = false ∧ x = false ∧ b = false) (sp : Spelling) :
    rexBit (rexOf mode64 sp r x b) 2 = r ∧ rexBit (rexOf mode64 sp r x b) 1 = x ∧
      rexBit (rexOf mode64 sp r x b) 0 = b := by
  have hbits : ∀ w r x b, let rex := byteOfBits false true false false w r x b;
      bit rex 2 = r ∧ bit rex 1 = x ∧ bit rex 0 = b := by decide
  unfold rexOf
  split
  · exact hbits ..
  · cases mode64 <;> simp_all [rexBit]

/-- How many vector registers an encoding of the mode can name (R27). -/
abbrev namedRegs (mode64 : Bool) : Nat := if mode64 then 32 else 8

theorem lt_eight_of_mode32 {mode64 : Bool} {r : Nat} (h : r < namedRegs mode64) (hm : mode64 = false) : r < 8 := by
  simpa [namedRegs, hm] using h

/-- The bytes of a legacy form decode to its term (R68, R69). -/
theorem decode_legacy_bytes {k nreg : Nat} {mode64 r : Bool} (sp : Spelling) {rm : RM k} (hwf : rm.wf mode64 nreg = true)
    (h32 : mode64 = false → nreg = 8 ∧ r = false) (opsize : Bool) (reg : BitVec 3) {bs : List Byte}
    (hbs : bs = writtenRun sp.seg (rm.needs67 mode64) opsize ++ (rexOf mode64 sp r (extX rm) (extB rm)).toList ++
      0x0F#8 :: 0xF5#8 :: encodeRM mode64 sp.disp32 1 reg rm) :
    decode mode64 bs = .instr
      (if opsize then .pmaddwdSse (num4 r reg) (rm.raw.toRM (num4 (extB rm))) bs.length
      else .pmaddwdMmx (num3 reg) (rm.raw.toRM num3) bs.length) := by
  have hlow : mode64 = false → r = false ∧ extX rm = false ∧ extB rm = false := by
    rintro rfl
    obtain ⟨rfl, hr⟩ := h32 rfl
    exact ⟨hr, ext_eq_false hwf⟩
  obtain ⟨hr, hx, hb⟩ := rexBit_rexOf hlow sp
  have hhead := headOk_writtenRun rm sp.seg opsize (rexOf_all mode64 sp r (extX rm) (extB rm))
  obtain ⟨hF0, hF2, hF3, -⟩ := not_mem_writtenRun sp.seg (rm.needs67 mode64) opsize
  rw [hbs, decode_opcode hhead (by decide), decodeOpcode_legacy, decodeLegacy_eq_finish hF0 hF2 hF3, hr, hx, hb,
    finish_encodeRM hwf, contains_66_writtenRun]

/-! ### The VEX forms -/

theorem vexTwo_bytes (r l : Bool) (v : BitVec 4) :
    vexTwo (BitVec.ofBool (!r) ++ (~~~v) ++ BitVec.ofBool l ++ 1#2) = ⟨r, false, false, 1#5, v, l, 1#2⟩ := by
  revert r l v; decide

theorem vexThree_bytes (w r x b l : Bool) (v : BitVec 4) :
    vexThree (byteOfBits (!r) (!x) (!b) false false false false true)
      (BitVec.ofBool w ++ (~~~v) ++ BitVec.ofBool l ++ 1#2) = ⟨r, x, b, 1#5, v, l, 1#2⟩ := by
  have h1 : ∀ r x b, let b1 := byteOfBits (!r) (!x) (!b) false false false false true
      (!bit b1 7) = r ∧ (!bit b1 6) = x ∧ (!bit b1 5) = b ∧ field b1 0 5 = 1#5 := by decide
  have h2 : ∀ (w l : Bool) (v : BitVec 4), let b2 : Byte := BitVec.ofBool w ++ (~~~v) ++ BitVec.ofBool l ++ 1#2
      ~~~field b2 3 4 = v ∧ bit b2 2 = l ∧ field b2 0 2 = 1#2 := by decide
  simp only [vexThree, h1 r x b, h2 w l v]

theorem startsVex_vexTwo {mode64 r : Bool} {v : BitVec 4} (h : mode64 = false → r = false ∧ v.getLsbD 3 = false)
    (l : Bool) : startsVex mode64 (BitVec.ofBool (!r) ++ (~~~v) ++ BitVec.ofBool l ++ 1#2) := by
  revert mode64 r v l; decide

theorem startsVex_byteOfBits {mode64 r x : Bool} (h : mode64 = false → r = false ∧ x = false) (b5 b4 : Bool) :
    startsVex mode64 (byteOfBits (!r) (!x) b5 b4 false false false true) := by
  revert mode64 r x b5 b4; decide

/-- Either spelling of the VEX fields gives them back (R75, R76). -/
theorem decode_vexBytes {mode64 : Bool} {p : List Byte} (hhead : headOk mode64 p none) (sp : Spelling) {r x b l : Bool}
    {v : BitVec 4} (h32 : mode64 = false → r = false ∧ x = false ∧ v.getLsbD 3 = false) (rest : List Byte) :
    decode mode64 (p ++ vexBytes sp r x b l v ++ rest) =
      decodeVex mode64 (p ++ vexBytes sp r x b l v ++ rest).length p none ⟨r, x, b, 1#5, v, l, 1#2⟩ rest := by
  unfold vexBytes
  split
  next =>
    have hstart : startsVex mode64 (byteOfBits (!r) (!x) (!b) false false false false true) :=
      startsVex_byteOfBits (fun hm => ⟨(h32 hm).1, (h32 hm).2.1⟩) ..
    have hopcode := decode_opcode_noRex hhead (b := 0xC4#8) (by decide)
    simp only [List.append_assoc, List.cons_append, List.nil_append, hopcode, decodeOpcode_vexThree hstart, vexThree_bytes]
  next h =>
    obtain ⟨rfl, rfl⟩ : x = false ∧ b = false := by simp_all
    have hstart := startsVex_vexTwo (fun hm => ⟨(h32 hm).1, (h32 hm).2.2⟩) l
    have hopcode := decode_opcode_noRex hhead (b := 0xC5#8) (by decide)
    simp only [List.append_assoc, List.cons_append, List.nil_append, hopcode, decodeOpcode_vexTwo hstart, vexTwo_bytes]

theorem numV_ofNat : ∀ r : Fin 16, numV (BitVec.ofNat 4 r) = r := by decide

/-- Outside 64-bit mode a source number has its high `vvvv` bit clear (R79, R82). -/
theorem getLsbD_three_ofNat {r : Nat} (h : r < 8) : (BitVec.ofNat 4 r).getLsbD 3 = false := by
  rw [BitVec.getLsbD_ofNat, Nat.testBit_lt_two_pow (show r < 2 ^ 3 from h), Bool.and_false]

/-- The bytes of a VEX form decode to its term (R75 to R79). -/
theorem decode_encodeVex {mode64 : Bool} (sp : Spelling) (l : Bool) {dst src1 : Fin 16} {src2 : RM 16}
    (hops : (decide (dst.val < namedRegs mode64) && decide (src1.val < namedRegs mode64) &&
      src2.wf mode64 (namedRegs mode64)) = true) :
    decode mode64 (encodeVex mode64 sp l dst src1 src2) = .instr
      (if l then .vpmaddwdVex256 dst src1 src2 (encodeVex mode64 sp l dst src1 src2).length
      else .vpmaddwdVex128 dst src1 src2 (encodeVex mode64 sp l dst src1 src2).length) := by
  simp only [Bool.and_eq_true, decide_eq_true_eq] at hops
  obtain ⟨⟨hdst, hsrc1⟩, hwf⟩ := hops
  have hext : mode64 = false → extX src2 = false ∧ extB src2 = false := by rintro rfl; exact ext_eq_false hwf
  have hv : mode64 = false → (BitVec.ofNat 4 src1).getLsbD 3 = false :=
    fun hm => getLsbD_three_ofNat (lt_eight_of_mode32 hsrc1 hm)
  have hr : mode64 = false → decide (8 ≤ dst.val) = false :=
    fun hm => decide_eq_false (Nat.not_le.2 (lt_eight_of_mode32 hdst hm))
  have hhead := headOk_writtenRun (mode64 := mode64) src2 sp.seg false (rex := none) rfl
  simp only [encodeVex, segPrefix_append_sizePrefix]
  rw [decode_vexBytes hhead sp (fun hm => ⟨hr hm, (hext hm).1, hv hm⟩),
    decodeVex_eq_finish _ _ _ (illegalBeforeVex_writtenRun ..) (fun hm => ⟨(hext hm).2, hv hm⟩),
    finish_encodeRM hwf, num4_low3, numV_ofNat, toRM_raw_num4]

/-! ### The EVEX forms -/

theorem evexOf_bytes (r x b rHigh w z vHigh : Bool) (v : BitVec 4) (ll : BitVec 2) (aaa : BitVec 3) :
    evexOf (byteOfBits (!r) (!x) (!b) (!rHigh) false false false true) (BitVec.ofBool w ++ (~~~v) ++ 1#1 ++ 1#2)
      (BitVec.ofBool z ++ ll ++ 0#1 ++ BitVec.ofBool (!vHigh) ++ aaa) =
      ⟨r, x, b, rHigh, false, 1#3, v, true, 1#2, z, ll, false, vHigh, aaa⟩ := by
  have h0 : ∀ r x b rHigh, let p0 := byteOfBits (!r) (!x) (!b) (!rHigh) false false false true
      (!bit p0 7) = r ∧ (!bit p0 6) = x ∧ (!bit p0 5) = b ∧ (!bit p0 4) = rHigh ∧ bit p0 3 = false ∧
        field p0 0 3 = 1#3 := by decide
  have h1 : ∀ (w : Bool) (v : BitVec 4), let p1 : Byte := BitVec.ofBool w ++ (~~~v) ++ 1#1 ++ 1#2
      ~~~field p1 3 4 = v ∧ bit p1 2 = true ∧ field p1 0 2 = 1#2 := by decide
  have h2 : ∀ (z vHigh : Bool) (ll : BitVec 2) (aaa : BitVec 3),
      let p2 : Byte := BitVec.ofBool z ++ ll ++ 0#1 ++ BitVec.ofBool (!vHigh) ++ aaa
      bit p2 7 = z ∧ field p2 5 2 = ll ∧ bit p2 4 = false ∧ (!bit p2 3) = vHigh ∧ field p2 0 3 = aaa := by decide
  simp only [evexOf, h0 r x b rHigh, h1 w v, h2 z vHigh ll aaa]

theorem numV5_ofNat : ∀ r : Fin 32, numV5 (decide (16 ≤ r.val)) (BitVec.ofNat 4 r) = r := by decide

/-- The bytes of an EVEX form decode to its term (R80 to R83). -/
theorem decode_encodeEvex {mode64 : Bool} (sp : Spelling) {ll : BitVec 2} (hll : ll ≠ 3#2) {dst src1 : Fin 32}
    {src2 : RM 32} {k : Fin 8} {z : Bool}
    (hops : (decide (dst.val < namedRegs mode64) && decide (src1.val < namedRegs mode64) &&
      src2.wf mode64 (namedRegs mode64) && maskOk k z) = true)
    {bs : List Byte} (hbs : bs = encodeEvex mode64 sp ll (dispFactor ll) dst src1 src2 k z) :
    decode mode64 bs = .instr
      (if ll = 0#2 then .vpmaddwdEvex128 dst src1 src2 k z bs.length
      else if ll = 1#2 then .vpmaddwdEvex256 dst src1 src2 k z bs.length
      else .vpmaddwdEvex512 dst src1 src2 k z bs.length) := by
  simp only [Bool.and_eq_true, decide_eq_true_eq] at hops
  obtain ⟨⟨⟨hdst, hsrc1⟩, hwf⟩, hmask⟩ := hops
  have hext : mode64 = false → extX src2 = false ∧ extB src2 = false := by rintro rfl; exact ext_eq_false hwf
  have hlow : mode64 = false → dst.val < 8 ∧ src1.val < 8 :=
    fun hm => ⟨lt_eight_of_mode32 hdst hm, lt_eight_of_mode32 hsrc1 hm⟩
  have hhead := headOk_writtenRun (mode64 := mode64) src2 sp.seg false (rex := none) rfl
  have hstart : startsVex mode64 (byteOfBits (!decide (dst.val % 16 ≥ 8)) (!extX src2) (!extB src2)
      (!decide (16 ≤ dst.val)) false false false true) :=
    startsVex_byteOfBits (fun hm => ⟨by have := hlow hm; simp; omega, (hext hm).1⟩) ..
  have hrHigh : mode64 = false → decide (16 ≤ dst.val) = false := fun hm => by have := hlow hm; simp; omega
  have hvHigh : mode64 = false → decide (16 ≤ src1.val) = false := fun hm => by have := hlow hm; simp; omega
  have hzero : ¬ (z = true ∧ BitVec.ofNat 3 k = 0#3) := by clear hbs; revert k z; decide
  rw [hbs, encodeEvex, evexBytes, segPrefix_append_sizePrefix, List.append_assoc]
  simp only [List.cons_append, List.nil_append]
  rw [decode_opcode_noRex hhead (by decide), decodeOpcode_evex hstart, evexOf_bytes,
    decodeEvex_eq_finish _ _ (illegalBeforeVex_writtenRun ..) hll hzero
      (fun hm => ⟨(hext hm).2, hrHigh hm, hvHigh hm, getLsbD_three_ofNat (hlow hm).2⟩),
    finish_encodeRM hwf, num5_low3, numV5_ofNat, toRM_raw_num5]
  simp only [show num3 (BitVec.ofNat 3 k) = k from num3_low3 k]

/-- Settles O49: form by form, the bytes that the encoder writes decode to the term. -/
theorem decodingInvertsEncoding : Obligations.DecodingInvertsEncoding := by
  intro mode64 sp i hwf
  unfold Instr.wf at hwf
  obtain ⟨-, hwf⟩ := Bool.and_eq_true_iff.1 hwf
  cases i with
  | pmaddwdMmx dst src len =>
    rw [decode_legacy_bytes (bs := encode mode64 sp (.pmaddwdMmx dst src len)) sp hwf (fun _ => ⟨rfl, rfl⟩) false
      (low3 dst) (by simp only [encode, segPrefix_append_sizePrefix, rexBytes_eq]), num3_low3, toRM_raw_num3]
    rfl
  | pmaddwdSse dst src len =>
    simp only [Bool.and_eq_true, decide_eq_true_eq] at hwf
    obtain ⟨hdst, hsrc⟩ := hwf
    have hr : mode64 = false → namedRegs mode64 = 8 ∧ decide (8 ≤ dst.val) = false :=
      fun hm => ⟨by simp [hm], decide_eq_false (Nat.not_le.2 (lt_eight_of_mode32 hdst hm))⟩
    rw [decode_legacy_bytes (bs := encode mode64 sp (.pmaddwdSse dst src len)) sp hsrc hr true (low3 dst)
      (by simp [encode, segPrefix_append_sizePrefix, rexBytes_eq, writtenRun_opsize]), num4_low3, toRM_raw_num4]
    rfl
  | vpmaddwdVex128 dst src1 src2 len => exact decode_encodeVex sp false hwf
  | vpmaddwdVex256 dst src1 src2 len => exact decode_encodeVex sp true hwf
  | vpmaddwdEvex128 dst src1 src2 k z len => exact decode_encodeEvex sp (ll := 0#2) (by decide) hwf rfl
  | vpmaddwdEvex256 dst src1 src2 k z len => exact decode_encodeEvex sp (ll := 1#2) (by decide) hwf rfl
  | vpmaddwdEvex512 dst src1 src2 k z len => exact decode_encodeEvex sp (ll := 2#2) (by decide) hwf rfl

end Sys2Proof

/-! PROOFS. Decoding reads the head of its bytes, as many as the instruction it gives is long (R88, R90, R142). -/

namespace Sys2Proof

open Machine

/-- A stage of the decoder, behind `head` bytes already read: if it answers at all, it answers from the first of the
bytes it is given, and an instruction's length is that of everything read. -/
def ReadsPrefix (head : Nat) (stage : List Byte → Decoded) : Prop :=
  ∀ bs, stage bs ≠ .short → ∃ used rest, bs = used ++ rest ∧ (∀ more, stage (used ++ more) = stage bs) ∧
    ∀ i, stage bs = .instr i → i.len = head + used.length

theorem ReadsPrefix.const (head : Nat) {d : Decoded} (hd : ∀ i, d ≠ .instr i) : ReadsPrefix head fun _ => d :=
  fun bs _ => ⟨[], bs, rfl, fun _ => rfl, fun i hi => absurd hi (hd i)⟩

theorem ReadsPrefix.ud (head : Nat) : ReadsPrefix head fun _ => .ud := .const head (by simp)

theorem ReadsPrefix.refused (head : Nat) (r : Refusal) : ReadsPrefix head fun _ => .refused r := .const head (by simp)

/-- A test that looks at no later byte. -/
theorem ReadsPrefix.ite {head : Nat} {c : Prop} [Decidable c] {f g : List Byte → Decoded} (hf : ReadsPrefix head f)
    (hg : ReadsPrefix head g) : ReadsPrefix head fun bs => if c then f bs else g bs := by
  by_cases hc : c
  · simpa [hc] using hf
  · simpa [hc] using hg

/-- Reading one byte. -/
theorem ReadsPrefix.cons {head : Nat} {f : List Byte → Decoded} (hnil : f [] = .short)
    (hcons : ∀ b, ReadsPrefix (head + 1) fun bs => f (b :: bs)) : ReadsPrefix head f := by
  intro bs h
  cases bs with
  | nil => exact absurd hnil h
  | cons b bs =>
    obtain ⟨used, rest, rfl, hmore, hlen⟩ := hcons b bs h
    refine ⟨b :: used, rest, rfl, hmore, fun i hi => ?_⟩
    rw [hlen i hi, List.length_cons, Nat.add_assoc, Nat.add_comm 1]

theorem total_cons {head : Nat} {total : List Byte → Nat} (ht : ∀ bs, total bs = head + bs.length) (b : Byte)
    (bs : List Byte) : total (b :: bs) = head + 1 + bs.length := by
  rw [ht, List.length_cons, Nat.add_assoc, Nat.add_comm 1]

theorem finish_readsPrefix {head : Nat} {c : AddrContext} {total : List Byte → Nat}
    {mk : BitVec 3 → RawRM → Nat → Instr} (ht : ∀ bs, total bs = head + bs.length)
    (hmk : ∀ reg rm n, (mk reg rm n).len = n) : ReadsPrefix head fun bs => finish c (total bs) mk bs := by
  intro bs h
  simp only [finish, ht] at h ⊢
  cases hp : parseModRM c bs with
  | none => simp [hp] at h
  | some e =>
    obtain ⟨reg, rm, rest⟩ := e
    obtain ⟨used, rfl, -, -, hmore⟩ := parseModRM_local hp
    have hlen (more : List Byte) : head + (used ++ more).length - more.length = head + used.length := by
      rw [List.length_append]; omega
    refine ⟨used, rest, rfl, fun more => by simp only [hmore, hlen], fun i hi => ?_⟩
    rw [← Decoded.instr.inj hi, hmk, hlen]

theorem decodeLegacy_readsPrefix {head : Nat} {total : List Byte → Nat} (ht : ∀ bs, total bs = head + bs.length)
    (mode64 : Bool) (p : List Byte) (rex : Option Byte) :
    ReadsPrefix head fun bs => decodeLegacy mode64 (total bs) p rex bs :=
  .cons rfl fun op => .ite (.refused _ _) <| .ite (.ud _) <| .ite (.refused _ _) <|
    finish_readsPrefix (total_cons ht op) fun reg rm n => by split <;> rfl

theorem decodeVex_readsPrefix {head : Nat} {total : List Byte → Nat} (ht : ∀ bs, total bs = head + bs.length)
    (mode64 : Bool) (p : List Byte) (rex : Option Byte) (v : VexFields) :
    ReadsPrefix head fun bs => decodeVex mode64 (total bs) p rex v bs :=
  .ite (.refused _ _) <| .cons rfl fun op => .ite (.refused _ _) <| .ite (.ud _) <| .ite (.refused _ _) <|
    finish_readsPrefix (total_cons ht op) fun reg rm n => by split <;> rfl

theorem decodeEvex_readsPrefix {head : Nat} {total : List Byte → Nat} (ht : ∀ bs, total bs = head + bs.length)
    (mode64 : Bool) (p : List Byte) (rex : Option Byte) (e : EvexFields) :
    ReadsPrefix head fun bs => decodeEvex mode64 (total bs) p rex e bs :=
  .ite (.refused _ _) <| .ite (.refused _ _) <| .cons rfl fun op => .ite (.refused _ _) <| .ite (.ud _) <|
    .ite (.ud _) <| .ite (.refused _ _) <|
    finish_readsPrefix (total_cons ht op) fun reg rm n => by
      split
      · rfl
      · split <;> rfl

theorem decodeOpcode_readsPrefix {head : Nat} {total : List Byte → Nat} (ht : ∀ bs, total bs = head + bs.length)
    (mode64 : Bool) (p : List Byte) (rex : Option Byte) (b0 : Byte) :
    ReadsPrefix head fun bs => decodeOpcode mode64 (total bs) p rex b0 bs := by
  refine .ite (decodeLegacy_readsPrefix ht _ _ _) <| .ite ?vexTwo <| .ite ?vexThree <| .ite ?evex (.refused _ _)
  case vexTwo =>
    exact .cons rfl fun b1 => .ite (decodeVex_readsPrefix (total_cons ht b1) _ _ _ _) (.refused _ _)
  case vexThree =>
    exact .cons rfl fun b1 => .ite
      (.cons rfl fun b2 => decodeVex_readsPrefix (total_cons (total_cons ht b1) b2) _ _ _ _) (.refused _ _)
  case evex =>
    exact .cons rfl fun p0 => .ite
      (.cons rfl fun p1 => .cons rfl fun p2 =>
        decodeEvex_readsPrefix (total_cons (total_cons (total_cons ht p0) p1) p2) _ _ _ _) (.refused _ _)

theorem decode_readsPrefix (mode64 : Bool) : ReadsPrefix 0 (decode mode64) := by
  intro bs h
  have hrun : bs = (splitRun bs).1 ++ (splitRun bs).2 := (splitRun_eq bs).symm
  cases hs : (splitRun bs).2 with
  | nil => simp [decode, hs] at h
  | cons b0 rest =>
    have hsplit (used : List Byte) := splitRun_idem bs b0 rest used hs
    rw [hs] at hrun
    generalize (splitRun bs).1 = p at hrun hsplit
    have htail : ReadsPrefix (p.length + 1) fun bs => decode mode64 (p ++ b0 :: bs) := by
      have htotal (bs : List Byte) : (p ++ b0 :: bs).length = p.length + 1 + bs.length := by simp; omega
      simp only [decode, hsplit]
      refine .ite (.refused _ _) <| .ite (.refused _ _) <| .ite (.refused _ _) <| .ite (.cons rfl fun b1 => ?rex) ?noRex
      case rex => exact decodeOpcode_readsPrefix (total_cons htotal b1) _ _ _ _
      case noRex => exact decodeOpcode_readsPrefix htotal _ _ _ _
    subst hrun
    obtain ⟨used, rest', rfl, hmore, hlen⟩ := htail rest h
    refine ⟨p ++ b0 :: used, rest', by simp, fun more => by simpa using hmore more, fun i hi => ?_⟩
    rw [hlen i hi, List.length_append, List.length_cons]
    omega

/-- Settles O46: the bytes that the decoder reads are the instruction's own. -/
theorem decodingReadsOnlyTheBytesItNeeds : Obligations.DecodingReadsOnlyTheBytesItNeeds := by
  refine ⟨fun mode64 bs more h => ?_, fun mode64 bs i hi => ?_⟩
  · obtain ⟨used, rest, rfl, hmore, -⟩ := decode_readsPrefix mode64 bs h
    rw [List.append_assoc, hmore]
  · obtain ⟨used, rest, rfl, hmore, hlen⟩ := decode_readsPrefix mode64 bs (by simp [hi])
    have hused : i.len = used.length := by simpa using hlen i hi
    rw [hused, List.take_left, ← hi]
    exact ⟨by simp, by simpa using hmore []⟩

/-! ### The step at such bytes -/

/-- An instruction at pc is among the bytes that the decoder is given (R88, R142). -/
theorem decode_bytesAtPc {s : State} {bs : List Byte} {i : Instr} (hc : codeAt s bs)
    (h : decode s.cfg.mode64 bs = .instr i) : decode s.cfg.mode64 (bytesAtPc s) = .instr i := by
  obtain ⟨hle, htake⟩ := decodingReadsOnlyTheBytesItNeeds.2 _ _ _ h
  obtain ⟨-, -, -, h13⟩ := Laws.LengthBounds.of_lenOk _ _ (decode_lenOk h)
  have hlen : (bs.take i.len).length = i.len := by simp [hle]
  have hwin : (bs.take i.len).length ≤ fetchWindow s := by rw [hlen, fetchWindow]; omega
  obtain ⟨n, hn⟩ := Nat.exists_eq_add_of_le hwin
  rw [bytesAtPc, hn, fetchBytes_append s (bs.take i.len) n _ fun j hj => by simpa using hc j (by omega),
    decodingReadsOnlyTheBytesItNeeds.1 _ _ _ (by simp [htake]), htake]

/-- Settles O34: the bytes fetched at pc begin with the instruction's own bytes. -/
theorem stepRunsTheDecodedInstruction : Obligations.StepRunsTheDecodedInstruction := by
  intro s bs i hm hc h
  simp only [step, hm, fetchDecode, decode_bytesAtPc hc h]

end Sys2Proof

/-! PROOFS. What the decoder refuses and where it raises `UD` (R45, R64 to R66, R74, R77, R79, R81, R82, R88, R92). -/

namespace Sys2Proof

open Machine

/-! ### The run of legacy bytes -/

/-- Given a run of legacy bytes the decoder looks at the run first (R88). -/
theorem decode_run {p : List Byte} (hp : ∀ x ∈ p, isLegacyPrefix x = true) {b : Byte} (hb : isLegacyPrefix b = false)
    (mode64 : Bool) (rest : List Byte) :
    (¬ runOnce p → decode mode64 (p ++ b :: rest) = .refused .prefixRepeat) ∧
    (runOnce p → 0x64#8 ∈ p ∨ 0x65#8 ∈ p → decode mode64 (p ++ b :: rest) = .refused .fsGsOverride) ∧
    (runOnce p → 0x64#8 ∉ p → 0x65#8 ∉ p → 0x67#8 ∈ p → mode64 = false →
      decode mode64 (p ++ b :: rest) = .refused .addr16) := by
  simp only [decode, splitRun_run hp hb, ← runRepeats_eq_false, Bool.not_eq_false]
  refine ⟨fun hrep => by simp [hrep], fun hrep hfs => ?_, fun hrep h64 h65 h67 hm => ?_⟩
  · simp [hrep, runHasFsGs, hfs]
  · simp [hrep, runHasFsGs, h64, h65, h67, hm]

/-! ### The legacy forms -/

theorem decodeLegacy_of_lock {p : List Byte} (h : 0xF0#8 ∈ p) (mode64 : Bool) (total : Nat) (rex : Option Byte)
    (bs : List Byte) : decodeLegacy mode64 total p rex (0xF5#8 :: bs) = .ud := by
  simp [decodeLegacy, h]

theorem decodeLegacy_of_rep {p : List Byte} (hF0 : 0xF0#8 ∉ p) (h : 0xF2#8 ∈ p ∨ 0xF3#8 ∈ p) (mode64 : Bool)
    (total : Nat) (rex : Option Byte) (bs : List Byte) :
    decodeLegacy mode64 total p rex (0xF5#8 :: bs) = .refused .repPrefix := by
  simp [decodeLegacy, hF0, h]

theorem decodeLegacy_of_other_opcode {op : Byte} (h : op ≠ 0xF5#8) (mode64 : Bool) (total : Nat) (p : List Byte)
    (rex : Option Byte) (bs : List Byte) :
    decodeLegacy mode64 total p rex (op :: bs) = .refused .notPmaddwd :=
  if_pos h

/-- Settles O52: a legacy form behind the head looks for LOCK first. -/
theorem lockPrefixRaisesUd : Obligations.LockPrefixRaisesUd := by
  intro mode64 p rex rest hhead hlock
  rw [decode_opcode hhead (by decide), decodeOpcode_legacy, decodeLegacy_of_lock hlock]

/-- Settles O54: the tests of a run stand in the order of the statement, and the legacy forms' own test is behind them. -/
theorem prefixRunsAreRefusedByName : Obligations.PrefixRunsAreRefusedByName := by
  refine ⟨fun mode64 p b rest hp hb => decode_run hp hb mode64 rest, fun mode64 p rex rest hhead hF0 hrep => ?_⟩
  rw [decode_opcode hhead (by decide), decodeOpcode_legacy, decodeLegacy_of_rep hF0 hrep]

/-! ### VEX prefixes -/

theorem illegalBeforeVex_iff (p : List Byte) (rex : Option Byte) :
    illegalBeforeVex p rex = true ↔
      rex.isSome = true ∨ 0xF0#8 ∈ p ∨ 0x66#8 ∈ p ∨ 0xF2#8 ∈ p ∨ 0xF3#8 ∈ p := by
  simp [illegalBeforeVex, or_assoc]

theorem decodeVex_of_not_selected {v : VexFields} {op : Byte} (h : v.map ≠ 1#5 ∨ v.pp ≠ 1#2 ∨ op ≠ 0xF5#8)
    (mode64 : Bool) (total : Nat) (p : List Byte) (rex : Option Byte) (bs : List Byte) :
    decodeVex mode64 total p rex v (op :: bs) = .refused .notPmaddwd := by
  by_cases hsel : v.map ≠ 1#5 ∨ v.pp ≠ 1#2
  · exact if_pos hsel
  · have hop := (or_assoc.2 h).resolve_left hsel
    simp only [decodeVex, if_neg hsel, if_pos hop]

theorem decodeVex_of_illegal {v : VexFields} (hmap : v.map = 1#5) (hpp : v.pp = 1#2) {p : List Byte}
    {rex : Option Byte} (h : illegalBeforeVex p rex = true) (mode64 : Bool) (total : Nat) (bs : List Byte) :
    decodeVex mode64 total p rex v (0xF5#8 :: bs) = .ud := by
  simp [decodeVex, hmap, hpp, h]

theorem decodeVex_of_high_register {v : VexFields} (hmap : v.map = 1#5) (hpp : v.pp = 1#2) {p : List Byte}
    (hlegal : illegalBeforeVex p none = false) (h : v.b = true ∨ v.vvvv.getLsbD 3 = true) (total : Nat)
    (bs : List Byte) : decodeVex false total p none v (0xF5#8 :: bs) = .refused .highRegIn32 := by
  have hhigh : (!false && (v.b || v.vvvv.getLsbD 3)) = true := by simpa using h
  simp only [decodeVex, hmap, hpp, hlegal, hhigh]
  rfl

/-! ### EVEX prefixes -/

theorem decodeEvex_of_reserved {e : EvexFields} (h : e.reserved0 = true ∨ e.reserved1 = false) (mode64 : Bool)
    (total : Nat) (p : List Byte) (rex : Option Byte) (bs : List Byte) :
    decodeEvex mode64 total p rex e bs = .refused .evexReserved :=
  if_pos (by simpa using h)

/-- The decoded EVEX fields select VPMADDWD (R80, R81). -/
def EvexFields.Selects (e : EvexFields) : Prop :=
  e.reserved0 = false ∧ e.reserved1 = true ∧ e.map = 1#3 ∧ e.pp = 1#2

theorem selects_evexOf {p0 p1 : Byte} (h : evexSelects p0 p1) (p2 : Byte) : (evexOf p0 p1 p2).Selects := h

theorem decodeEvex_of_not_selected {e : EvexFields} {op : Byte} (h0 : e.reserved0 = false) (h1 : e.reserved1 = true)
    (h : e.map ≠ 1#3 ∨ e.pp ≠ 1#2 ∨ op ≠ 0xF5#8) (mode64 : Bool) (total : Nat) (p : List Byte) (rex : Option Byte)
    (bs : List Byte) : decodeEvex mode64 total p rex e (op :: bs) = .refused .notPmaddwd := by
  have hres : ¬ (e.reserved0 || !e.reserved1) = true := by simp [h0, h1]
  by_cases hsel : e.map ≠ 1#3 ∨ e.pp ≠ 1#2
  · simp only [decodeEvex, if_neg hres, if_pos hsel]
  · have hop := (or_assoc.2 h).resolve_left hsel
    simp only [decodeEvex, if_neg hres, if_neg hsel, if_pos hop]

theorem decodeEvex_of_illegal {e : EvexFields} (h : e.Selects) {p : List Byte} {rex : Option Byte}
    (hill : illegalBeforeVex p rex = true) (mode64 : Bool) (total : Nat) (bs : List Byte) :
    decodeEvex mode64 total p rex e (0xF5#8 :: bs) = .ud := by
  obtain ⟨h0, h1, hmap, hpp⟩ := h
  simp [decodeEvex, h0, h1, hmap, hpp, hill]

/-- An illegal combination is `UD` whatever stands before it (R81). -/
theorem decodeEvex_of_illegal_combination {e : EvexFields} (h : e.Selects)
    (hcomb : e.ll = 3#2 ∨ e.bcast = true ∨ (e.z = true ∧ e.aaa = 0#3)) (mode64 : Bool) (total : Nat) (p : List Byte)
    (rex : Option Byte) (bs : List Byte) : decodeEvex mode64 total p rex e (0xF5#8 :: bs) = .ud := by
  obtain ⟨h0, h1, hmap, hpp⟩ := h
  simp [decodeEvex, h0, h1, hmap, hpp, hcomb]

theorem decodeEvex_of_high_register {e : EvexFields} (h : e.Selects) {p : List Byte}
    (hlegal : illegalBeforeVex p none = false) (hcomb : ¬ (e.ll = 3#2 ∨ e.bcast = true ∨ (e.z = true ∧ e.aaa = 0#3)))
    (hhigh : e.b = true ∨ e.rHigh = true ∨ e.vvvv.getLsbD 3 = true ∨ e.vHigh = true) (total : Nat) (bs : List Byte) :
    decodeEvex false total p none e (0xF5#8 :: bs) = .refused .highRegIn32 := by
  obtain ⟨h0, h1, hmap, hpp⟩ := h
  have hhigh' : (!false && (e.b || e.rHigh || e.vHigh || e.vvvv.getLsbD 3)) = true := by
    simpa [or_assoc, or_comm (a := e.vHigh = true)] using hhigh
  simp only [decodeEvex, h0, h1, hmap, hpp, hlegal, if_neg hcomb, hhigh']
  rfl

/-- Settles O51: the combinations are tested right behind the opcode, and what may not stand before the encoding
is `UD` too. -/
theorem illegalEvexCombinationsRaiseUd : Obligations.IllegalEvexCombinationsRaiseUd := by
  intro mode64 p rex p0 p1 p2 rest hhead hstart hsel hcomb
  rw [decode_opcode hhead (by decide), decodeOpcode_evex hstart,
    decodeEvex_of_illegal_combination (selects_evexOf hsel p2) hcomb]

/-- Settles O56: the fixed bits are tested before any other field. -/
theorem reservedEvexBitsAreRefused : Obligations.ReservedEvexBitsAreRefused := by
  intro mode64 p rex p0 p1 p2 rest hhead hstart hres
  rw [decode_opcode hhead (by decide), decodeOpcode_evex hstart, decodeEvex_of_reserved hres]

/-! ### All VEX and EVEX prefixes -/

/-- Settles O53: what may not stand before the encoding is tested right behind the opcode, in all three of them. -/
theorem illegalPrefixBeforeVexOrEvexRaisesUd : Obligations.IllegalPrefixBeforeVexOrEvexRaisesUd := by
  intro mode64 p rex hhead hbefore
  have hill := (illegalBeforeVex_iff p rex).2 hbefore
  refine ⟨fun b1 rest hstart hpp => ?vexTwo, fun b1 b2 rest hstart hmap hpp => ?vexThree,
    fun p0 p1 p2 rest hstart hsel => ?evex⟩
  case vexTwo =>
    rw [decode_opcode hhead (by decide), decodeOpcode_vexTwo hstart,
      decodeVex_of_illegal (v := vexTwo b1) rfl hpp hill]
  case vexThree =>
    rw [decode_opcode hhead (by decide), decodeOpcode_vexThree hstart,
      decodeVex_of_illegal (v := vexThree b1 b2) hmap hpp hill]
  case evex =>
    rw [decode_opcode hhead (by decide), decodeOpcode_evex hstart,
      decodeEvex_of_illegal (selects_evexOf hsel p2) hill]

/-- The high bit of an inverted `vvvv` field (R75, R76, R80). -/
theorem getLsbD_three_vvvv (b : Byte) : (~~~field b 3 4).getLsbD 3 = !b.getLsbD 6 := by
  revert b; decide

/-- Settles O55: the high register bits are tested last. -/
theorem highRegistersAreRefusedIn32BitMode : Obligations.HighRegistersAreRefusedIn32BitMode := by
  intro p hhead hF0 h66 hF2 hF3
  have hlegal : illegalBeforeVex p none = false := by
    rw [← Bool.not_eq_true, illegalBeforeVex_iff]
    simp [hF0, h66, hF2, hF3]
  refine ⟨fun b1 b2 rest hstart hmap hpp hhigh => ?vex, fun p0 p1 p2 rest hstart hsel hll hb hz hhigh => ?evex⟩
  case vex =>
    rw [decode_opcode_noRex hhead (by decide), decodeOpcode_vexThree hstart,
      decodeVex_of_high_register (v := vexThree b1 b2) hmap hpp hlegal]
    simpa only [vexThree, bit, getLsbD_three_vvvv, Bool.not_eq_true'] using hhigh
  case evex =>
    have hcomb : ¬ ((evexOf p0 p1 p2).ll = 3#2 ∨ (evexOf p0 p1 p2).bcast = true ∨
        ((evexOf p0 p1 p2).z = true ∧ (evexOf p0 p1 p2).aaa = 0#3)) := by
      rintro (hll' | hb' | ⟨hz', haaa⟩)
      · exact hll hll'
      · exact Bool.false_ne_true (hb.symm.trans hb')
      · exact hz hz' haaa
    rw [decode_opcode_noRex hhead (by decide), decodeOpcode_evex hstart,
      decodeEvex_of_high_register (selects_evexOf hsel p2) hlegal hcomb]
    simpa only [evexOf, bit, getLsbD_three_vvvv, Bool.not_eq_true'] using hhigh

/-! ### Everything else -/

theorem decodeOpcode_of_other {b : Byte} (h : b ∉ [0x0F#8, 0xC4#8, 0xC5#8, 0x62#8]) (mode64 : Bool) (total : Nat)
    (p : List Byte) (rex : Option Byte) (bs : List Byte) :
    decodeOpcode mode64 total p rex b bs = .refused .notPmaddwd := by
  simp only [List.mem_cons, List.not_mem_nil, or_false, not_or] at h
  obtain ⟨hleg, hC4, hC5, h62⟩ := h
  simp [decodeOpcode, hleg, hC4, hC5, h62]

/-- Outside 64-bit mode LES, LDS and BOUND stand where a VEX or EVEX encoding would (R79, R82). -/
theorem decodeOpcode_of_not_startsVex {mode64 : Bool} {b1 : Byte} (h : ¬ startsVex mode64 b1) {b0 : Byte}
    (hb0 : b0 ∈ [0xC4#8, 0xC5#8, 0x62#8]) (total : Nat) (p : List Byte) (rex : Option Byte) (bs : List Byte) :
    decodeOpcode mode64 total p rex b0 (b1 :: bs) = .refused .notPmaddwd := by
  have hno : ¬ vexByteOk mode64 b1 = true := mt (vexByteOk_iff mode64 b1).1 h
  simp only [List.mem_cons, List.not_mem_nil, or_false] at hb0
  obtain rfl | rfl | rfl := hb0
  · exact if_neg hno
  · exact if_neg hno
  · exact if_neg hno

/-- Settles O58: each encoding refuses what does not select (V)PMADDWD. -/
theorem otherOpcodesAreRefused : Obligations.OtherOpcodesAreRefused := by
  intro mode64 p rex hhead
  refine ⟨fun b rest hb hother => ?first, fun b rest hop => ?legacy, fun b1 op rest hstart hsel => ?vexTwo,
    fun b1 b2 op rest hstart hsel => ?vexThree, fun p0 p1 p2 op rest hstart h0 h1 hsel => ?evex,
    fun b0 b1 rest hstart hb0 => ?notVex⟩
  case first => rw [decode_head hhead hb, decodeOpcode_of_other hother]
  case legacy => rw [decode_opcode hhead (by decide), decodeOpcode_legacy, decodeLegacy_of_other_opcode hop]
  case vexTwo =>
    rw [decode_opcode hhead (by decide), decodeOpcode_vexTwo hstart,
      decodeVex_of_not_selected (v := vexTwo b1) (.inr hsel)]
  case vexThree =>
    rw [decode_opcode hhead (by decide), decodeOpcode_vexThree hstart,
      decodeVex_of_not_selected (v := vexThree b1 b2) hsel]
  case evex =>
    rw [decode_opcode hhead (by decide), decodeOpcode_evex hstart,
      decodeEvex_of_not_selected (e := evexOf p0 p1 p2) h0 h1 hsel]
  case notVex =>
    rw [decode_opcode hhead (List.mem_cons_of_mem _ hb0), decodeOpcode_of_not_startsVex hstart hb0]

/-! ### Words that are accepted -/

/-- Settles O50: the decoder run on each word. -/
theorem wordsFromTheSpecDecode : Obligations.WordsFromTheSpecDecode := by
  refine ⟨?_, ?_, ?_, ?_, ?_, ?_, ?_⟩ <;> decide

/-- Settles O57: form MMX takes its register numbers from ModRM alone. -/
theorem rexLeavesMmxRegisterNumbers : Obligations.RexLeavesMmxRegisterNumbers := by
  intro rex reg rm rest
  have hrex : (4#4 ++ rex : Byte).extractLsb' 4 4 = 4#4 := BitVec.extractLsb'_append_eq_left
  have hhead : headOk true [] (some (4#4 ++ rex)) := by simp [headOk, runOnce, hrex]
  have hmodrm (c : AddrContext) : parseModRM c ((3#2 ++ reg ++ rm) :: rest) = some (reg, .reg rm, rest) := by
    change parseModRM c (byte233 3#2 reg rm :: rest) = _
    simp [parseModRM]
  have hdecode := decode_opcode hhead (b := 0x0F#8) (by decide) (0xF5#8 :: (3#2 ++ reg ++ rm) :: rest)
  simp only [Option.toList_some, List.nil_append, List.singleton_append] at hdecode
  rw [hdecode, decodeOpcode_legacy, decodeLegacy_eq_finish (by simp) (by simp) (by simp), finish, hmodrm]
  have hlen : rest.length + 1 + 1 + 1 + 1 - rest.length = 4 := by omega
  simp [RawRM.toRM, num3, hlen]

end Sys2Proof

/-! PROOFS. Whatever the decoder accepts is well-formed (R27, R32, R71 to R74, R81, R85). -/

namespace Sys2Proof

open Machine

/-! ### The operand of ModRM:r/m -/

/-- What stands before ModRM outside 64-bit mode: 32-bit addresses and no extension bits (R66, R74, R79, R82). -/
def AddrContext.Fits (c : AddrContext) : Prop :=
  c.n ≤ 64 ∧ (c.mode64 = false → c.asz = .a32 ∧ c.x = false ∧ c.b = false)

theorem AddrContext.Fits.mk_addrSize {mode64 x b : Bool} {n : Nat} (hn : n ≤ 64)
    (h : mode64 = false → x = false ∧ b = false) (p : List Byte) :
    AddrContext.Fits ⟨mode64, addrSize mode64 p, x, b, n⟩ :=
  ⟨hn, fun hm => ⟨by rw [show mode64 = false from hm]; rfl, h hm⟩⟩

/-- A displacement is a signed 32-bit value, also where it is a byte times the operand size (R72, R83). -/
theorem parseDisp_range {n : Nat} (hn : n ≤ 64) {k : DispSize} {bs rest : List Byte} {d : Int}
    (h : parseDisp n k bs = some (d, rest)) : -2147483648 ≤ d ∧ d < 2147483648 := by
  cases k with
  | none =>
    obtain ⟨rfl, -⟩ : 0 = d ∧ bs = rest := by simpa [parseDisp] using h
    decide
  | one =>
    match bs, h with
    | b :: bs, h =>
      obtain ⟨rfl, -⟩ : b.toInt * n = d ∧ bs = rest := by simpa [parseDisp] using h
      have hlo : -128 ≤ b.toInt := BitVec.le_toInt b
      have hhi : b.toInt < 128 := BitVec.toInt_lt
      have hfactor : (n : Int) ≤ 64 := by exact_mod_cast hn
      constructor
      · nlinarith
      · nlinarith
  | four =>
    match bs, h with
    | b0 :: b1 :: b2 :: b3 :: bs, h =>
      obtain ⟨rfl, -⟩ : (b3 ++ b2 ++ b1 ++ b0).toInt = d ∧ bs = rest := by simpa [parseDisp] using h
      exact ⟨BitVec.le_toInt _, BitVec.toInt_lt⟩

theorem gprOk_num4 {mode64 hi : Bool} (h : mode64 = false → hi = false) (lo : BitVec 3) :
    gprOk mode64 (num4 hi lo) = true := by
  revert mode64 hi lo; decide

theorem parseMem_wf {c : AddrContext} (hc : c.Fits) {mod : BitVec 2} {rm : BitVec 3} {bs rest : List Byte} {m : MemExpr}
    (h : parseMem c mod rm bs = some (m, rest)) : m.wf c.mode64 = true := by
  obtain ⟨hn, h32⟩ := hc
  have hasz : c.mode64 = false → c.asz = .a32 := fun hm => (h32 hm).1
  have hindex (lo : BitVec 3) := gprOk_num4 (fun hm => (h32 hm).2.1) lo
  have hbase (lo : BitVec 3) := gprOk_num4 (fun hm => (h32 hm).2.2) lo
  unfold parseMem at h
  split at h
  next =>
    match bs, h with
    | sib :: bs, h =>
      simp only [Option.map_eq_some_iff, Prod.exists] at h
      obtain ⟨d, rest', hd, e⟩ := h
      obtain ⟨rfl, rfl⟩ := Prod.mk.inj e
      have hrange := parseDisp_range hn hd
      refine (MemExpr.wf_iff ..).2 ⟨fun b hb => ?_, fun x hx => ?_, hrange, nofun, hasz⟩
      · obtain ⟨-, hb⟩ := Option.ite_none_left_eq_some.1 hb
        exact Option.some.inj hb ▸ hbase _
      · obtain ⟨h4, hx⟩ := Option.ite_none_left_eq_some.1 hx
        exact Option.some.inj hx ▸ ⟨hindex _, h4⟩
  next =>
    simp only [Option.map_eq_some_iff, Prod.exists] at h
    obtain ⟨d, rest', hd, e⟩ := h
    obtain ⟨rfl, rfl⟩ := Prod.mk.inj e
    refine (MemExpr.wf_iff ..).2 ⟨fun b hb => ?_, nofun, parseDisp_range hn hd, fun hrip => ?_, hasz⟩
    · obtain ⟨-, hb⟩ := Option.ite_none_left_eq_some.1 hb
      exact Option.some.inj hb ▸ hbase _
    · simp_all

/-- An operand is well-formed where its register number, extended as the form says, exists (R85). -/
theorem parseModRM_wf {c : AddrContext} (hc : c.Fits) {bs rest : List Byte} {reg : BitVec 3} {raw : RawRM}
    (h : parseModRM c bs = some (reg, raw, rest)) {k nreg : Nat} {ext : BitVec 3 → Fin k}
    (hext : ∀ lo, (ext lo).val < nreg) : (raw.toRM ext).wf c.mode64 nreg = true := by
  match bs, h with
  | m :: bs, h =>
    simp only [parseModRM] at h
    split at h
    · obtain ⟨-, rfl, -⟩ : _ ∧ RawRM.reg (field m 0 3) = raw ∧ _ := by simpa using h
      exact decide_eq_true (hext _)
    · simp only [Option.map_eq_some_iff, Prod.exists] at h
      obtain ⟨e, rest', hm, heq⟩ := h
      obtain ⟨-, rfl, -⟩ : _ ∧ RawRM.mem e = raw ∧ _ := by simpa using heq
      exact parseMem_wf hc hm

/-- The term that `finish` builds has a well-formed operand (R67, R85). -/
theorem finish_wf {c : AddrContext} (hc : c.Fits) {total : Nat} {mk : BitVec 3 → RawRM → Nat → Instr} {bs : List Byte}
    {i : Instr} (h : finish c total mk bs = .instr i) :
    ∃ reg raw len, i = mk reg raw len ∧
      ∀ {k nreg : Nat} {ext : BitVec 3 → Fin k}, (∀ lo, (ext lo).val < nreg) →
        (raw.toRM ext).wf c.mode64 nreg = true := by
  unfold finish at h
  split at h
  · cases h
  · exact ⟨_, _, _, (Decoded.instr.inj h).symm, fun hext => parseModRM_wf hc ‹_› hext⟩

/-! ### Register numbers -/

theorem num4_lt {mode64 hi : Bool} (h : mode64 = false → hi = false) (lo : BitVec 3) :
    (num4 hi lo).val < namedRegs mode64 := by
  revert mode64 hi lo; decide

theorem num5_lt {mode64 h1 h0 : Bool} (h : mode64 = false → h1 = false ∧ h0 = false) (lo : BitVec 3) :
    (num5 h1 h0 lo).val < namedRegs mode64 := by
  revert mode64 h1 h0 lo; decide

theorem numV_lt {mode64 : Bool} {v : BitVec 4} (h : mode64 = false → v.getLsbD 3 = false) :
    (numV v).val < namedRegs mode64 := by
  revert mode64 v; decide

theorem numV5_lt {mode64 hi : Bool} {v : BitVec 4} (h : mode64 = false → hi = false ∧ v.getLsbD 3 = false) :
    (numV5 hi v).val < namedRegs mode64 := by
  revert mode64 hi v; decide

/-! ### The encodings -/

/-- Outside 64-bit mode there is no REX byte (R66). -/
theorem rexBit_eq_false {mode64 : Bool} {p : List Byte} {rex : Option Byte} (h : headOk mode64 p rex) (n : Nat)
    (hm : mode64 = false) : rexBit rex n = false := by
  obtain ⟨-, -, -, -, -, hrex⟩ := h
  cases rex with
  | none => rfl
  | some b => simp [hm] at hrex

theorem Instr.wf_ite {mode64 : Bool} {n : Nat} {c : Prop} [Decidable c] {i j : Instr}
    (hi : lenOk i.form i.len = true → i.wf mode64 n = true) (hj : lenOk j.form j.len = true → j.wf mode64 n = true)
    (hlen : lenOk (if c then i else j).form (if c then i else j).len = true) :
    (if c then i else j).wf mode64 n = true := by
  split_ifs at hlen ⊢
  · exact hi hlen
  · exact hj hlen

theorem decodeLegacy_wf {mode64 : Bool} {total : Nat} {p : List Byte} {rex : Option Byte} {bs : List Byte} {i : Instr}
    (hhead : headOk mode64 p rex) (h : decodeLegacy mode64 total p rex bs = .instr i) (hlen : lenOk i.form i.len = true) :
    i.wf mode64 (namedRegs mode64) = true := by
  have hrex := rexBit_eq_false hhead
  cases bs with
  | nil => cases h
  | cons op bs =>
    simp only [decodeLegacy] at h
    split at h; · cases h
    split at h; · cases h
    split at h; · cases h
    obtain ⟨reg, raw, len, rfl, hrm⟩ := finish_wf (.mk_addrSize (by decide) (fun hm => ⟨hrex 1 hm, hrex 0 hm⟩) p) h
    refine Instr.wf_ite (fun hlen => ?sse) (fun hlen => ?mmx) hlen
    case sse =>
      simp only [Instr.wf, Bool.and_eq_true, decide_eq_true_eq]
      exact ⟨hlen, num4_lt (hrex 2) _, hrm (num4_lt (hrex 0))⟩
    case mmx => exact Bool.and_eq_true_iff.2 ⟨hlen, hrm fun lo => (num3 lo).isLt⟩

theorem vexOperands_wf {mode64 : Bool} {k n : Nat} {dst src1 : Fin k} {src2 : RM k} (hdst : dst.val < n)
    (hsrc1 : src1.val < n) (hsrc2 : src2.wf mode64 n = true) :
    (decide (dst.val < n) && decide (src1.val < n) && src2.wf mode64 n) = true := by
  simp [hdst, hsrc1, hsrc2]

/-- `hfixed` is what LES and LDS leave to a VEX encoding outside 64-bit mode (R79). -/
theorem decodeVex_wf {mode64 : Bool} {total : Nat} {p : List Byte} {rex : Option Byte} {v : VexFields} {bs : List Byte}
    {i : Instr} (hfixed : mode64 = false → v.r = false ∧ v.x = false)
    (h : decodeVex mode64 total p rex v bs = .instr i) (hlen : lenOk i.form i.len = true) :
    i.wf mode64 (namedRegs mode64) = true := by
  unfold decodeVex at h
  split at h; · cases h
  cases bs with
  | nil => cases h
  | cons op bs =>
    simp only at h
    split at h; · cases h
    split at h; · cases h
    split at h; · cases h
    rename_i hhigh
    have hlow : mode64 = false → v.b = false ∧ v.vvvv.getLsbD 3 = false := by rintro rfl; simpa using hhigh
    obtain ⟨reg, raw, len, rfl, hrm⟩ :=
      finish_wf (.mk_addrSize (by decide) (fun hm => ⟨(hfixed hm).2, (hlow hm).1⟩) p) h
    have hops := vexOperands_wf (num4_lt (fun hm => (hfixed hm).1) reg) (numV_lt fun hm => (hlow hm).2)
      (hrm (num4_lt fun hm => (hlow hm).1))
    exact Instr.wf_ite (fun hlen => Bool.and_eq_true_iff.2 ⟨hlen, hops⟩)
      (fun hlen => Bool.and_eq_true_iff.2 ⟨hlen, hops⟩) hlen

theorem maskOk_num3 {z : Bool} {aaa : BitVec 3} (h : ¬ (z = true ∧ aaa = 0#3)) : maskOk (num3 aaa) z = true := by
  revert z aaa; decide

theorem dispFactor_le : ∀ ll, dispFactor ll ≤ 64 := by decide

/-- `hfixed` is what BOUND leaves to an EVEX encoding outside 64-bit mode (R82). -/
theorem decodeEvex_wf {mode64 : Bool} {total : Nat} {p : List Byte} {rex : Option Byte} {e : EvexFields}
    {bs : List Byte} {i : Instr} (hfixed : mode64 = false → e.r = false ∧ e.x = false)
    (h : decodeEvex mode64 total p rex e bs = .instr i) (hlen : lenOk i.form i.len = true) :
    i.wf mode64 (namedRegs mode64) = true := by
  unfold decodeEvex at h
  split at h; · cases h
  split at h; · cases h
  cases bs with
  | nil => cases h
  | cons op bs =>
    simp only at h
    split at h; · cases h
    split at h; · cases h
    split at h; · cases h
    rename_i hcomb
    split at h; · cases h
    rename_i hhigh
    have hlow : mode64 = false → e.b = false ∧ e.rHigh = false ∧ e.vHigh = false ∧ e.vvvv.getLsbD 3 = false := by
      rintro rfl; simpa [and_assoc] using hhigh
    obtain ⟨reg, raw, len, rfl, hrm⟩ :=
      finish_wf (.mk_addrSize (dispFactor_le e.ll) (fun hm => ⟨(hfixed hm).2, (hlow hm).1⟩) p) h
    have hsources := vexOperands_wf (num5_lt (fun hm => ⟨(hlow hm).2.1, (hfixed hm).1⟩) reg)
      (numV5_lt fun hm => (hlow hm).2.2) (hrm (num5_lt fun hm => ⟨(hfixed hm).2, (hlow hm).1⟩))
    have hmask : maskOk (num3 e.aaa) e.z = true := maskOk_num3 fun hz => hcomb (.inr (.inr hz))
    have hops := Bool.and_eq_true_iff.2 ⟨hsources, hmask⟩
    exact Instr.wf_ite (fun hlen => Bool.and_eq_true_iff.2 ⟨hlen, hops⟩)
      (Instr.wf_ite (fun hlen => Bool.and_eq_true_iff.2 ⟨hlen, hops⟩)
        (fun hlen => Bool.and_eq_true_iff.2 ⟨hlen, hops⟩)) hlen

/-- Outside 64-bit mode the byte after C4H, C5H or 62H has its two inverted high bits set (R79, R82). -/
theorem high_bits_of_vexByteOk {mode64 : Bool} {b : Byte} (h : vexByteOk mode64 b = true) (hm : mode64 = false) :
    (!bit b 7) = false ∧ (!bit b 6) = false := by
  subst hm
  revert b; decide

theorem decodeOpcode_wf {mode64 : Bool} {total : Nat} {p : List Byte} {rex : Option Byte} {b0 : Byte} {bs : List Byte}
    {i : Instr} (hhead : headOk mode64 p rex) (h : decodeOpcode mode64 total p rex b0 bs = .instr i)
    (hlen : lenOk i.form i.len = true) : i.wf mode64 (namedRegs mode64) = true := by
  unfold decodeOpcode at h
  split at h
  · exact decodeLegacy_wf hhead h hlen
  split at h
  · match bs, h with
    | b1 :: bs, h =>
      simp only at h
      split at h
      · exact decodeVex_wf (v := vexTwo b1) (fun hm => ⟨(high_bits_of_vexByteOk ‹_› hm).1, rfl⟩) h hlen
      · cases h
  split at h
  · match bs, h with
    | [_], h => simp only at h; split at h <;> cases h
    | b1 :: b2 :: bs, h =>
      simp only at h
      split at h
      · exact decodeVex_wf (v := vexThree b1 b2) (high_bits_of_vexByteOk ‹_›) h hlen
      · cases h
  split at h
  · match bs, h with
    | [_], h => simp only at h; split at h <;> cases h
    | [_, _], h => simp only at h; split at h <;> cases h
    | p0 :: p1 :: p2 :: bs, h =>
      simp only at h
      split at h
      · exact decodeEvex_wf (e := evexOf p0 p1 p2) (high_bits_of_vexByteOk ‹_›) h hlen
      · cases h
  · cases h

/-- Settles O47: whichever encoding stands behind the head, its register numbers, operand and mask fit the mode. -/
theorem decodedInstructionsAreWellFormed : Obligations.DecodedInstructionsAreWellFormed := by
  intro mode64 bs i h
  obtain ⟨p, rex, b, rest, hhead, -, hop⟩ := decode_eq_instr h
  exact decodeOpcode_wf hhead hop (decode_lenOk h)

/-! ### Registers below NVEC -/

/-- An operand field that names one of `k` registers fits every mode with at least `k` (R27). -/
theorem RM.wf_of_le {k a b : Nat} (hkb : k ≤ b) {mode64 : Bool} {rm : RM k} (h : rm.wf mode64 a = true) :
    rm.wf mode64 b = true := by
  cases rm with
  | reg r => exact decide_eq_true (r.isLt.trans_le hkb)
  | mem m => exact h

theorem sixteen_le_nvec {c : Config} (hm : c.mode64 = true) : 16 ≤ nvec c := by
  rw [nvec, if_pos hm]
  split <;> decide

/-- A processor with an EVEX form has all 32 vector registers in 64-bit mode (R2, R27). -/
theorem nvec_of_evex {c : Config} (hm : c.mode64 = true) {f : Form} (hf : f = .evex128 ∨ f = .evex256 ∨ f = .evex512)
    (h : formSupported c f = true) : nvec c = 32 := by
  have hfeat := (Bool.and_eq_true_iff.1 h).1
  rw [nvec, if_pos hm, if_pos]
  rcases hf with rfl | rfl | rfl
  · exact Bool.or_eq_true_iff.2 (.inl hfeat)
  · exact Bool.or_eq_true_iff.2 (.inl hfeat)
  · exact Bool.or_eq_true_iff.2 (.inr hfeat)

/-- Settles O48: legacy and VEX fields name sixteen registers, and a processor with an EVEX form has 32. -/
theorem supportedInstructionsNameExistingRegisters : Obligations.SupportedInstructionsNameExistingRegisters := by
  intro c bs i h hsup
  have hwf := decodedInstructionsAreWellFormed c.mode64 bs i h
  cases hm : c.mode64 with
  | false =>
    rw [hm] at hwf
    simpa [nvec, hm] using hwf
  | true =>
    rw [hm] at hwf
    have h16 := sixteen_le_nvec hm
    cases i with
    | pmaddwdMmx dst src len => exact hwf
    | pmaddwdSse dst src len =>
      simp only [Instr.wf, Bool.and_eq_true, decide_eq_true_eq] at hwf ⊢
      obtain ⟨hlen, -, hsrc⟩ := hwf
      exact ⟨hlen, dst.isLt.trans_le h16, RM.wf_of_le h16 hsrc⟩
    | vpmaddwdVex128 dst src1 src2 len =>
      simp only [Instr.wf, Bool.and_eq_true, decide_eq_true_eq] at hwf ⊢
      obtain ⟨hlen, -, hsrc2⟩ := hwf
      exact ⟨hlen, ⟨dst.isLt.trans_le h16, src1.isLt.trans_le h16⟩, RM.wf_of_le h16 hsrc2⟩
    | vpmaddwdVex256 dst src1 src2 len =>
      simp only [Instr.wf, Bool.and_eq_true, decide_eq_true_eq] at hwf ⊢
      obtain ⟨hlen, -, hsrc2⟩ := hwf
      exact ⟨hlen, ⟨dst.isLt.trans_le h16, src1.isLt.trans_le h16⟩, RM.wf_of_le h16 hsrc2⟩
    | vpmaddwdEvex128 dst src1 src2 k z len => rw [nvec_of_evex hm (.inl rfl) hsup]; exact hwf
    | vpmaddwdEvex256 dst src1 src2 k z len => rw [nvec_of_evex hm (.inr (.inl rfl)) hsup]; exact hwf
    | vpmaddwdEvex512 dst src1 src2 k z len => rw [nvec_of_evex hm (.inr (.inr rfl)) hsup]; exact hwf

end Sys2Proof

/-! PROOFS. The effective address as 64-bit arithmetic (R72, R73, R74). -/

namespace Sys2Proof.Machine

theorem aszBits_le (asz : AddrSize) : aszBits asz ≤ 64 := by
  cases asz <;> decide

theorem setWidth_ofInt {w v : Nat} (h : v ≤ w) (d : Int) : (BitVec.ofInt w d).setWidth v = BitVec.ofInt v d := by
  have hdvd : ((2 ^ v : Nat) : Int) ∣ (2 ^ w : Nat) := Int.natCast_dvd_natCast.2 (Nat.pow_dvd_pow 2 h)
  have hpos (n : Nat) : 0 ≤ d % ((2 ^ n : Nat) : Int) := Int.emod_nonneg _ (by positivity)
  apply BitVec.eq_of_toNat_eq
  rw [BitVec.toNat_setWidth, BitVec.toNat_ofInt, BitVec.toNat_ofInt, ← Int.natCast_inj, Int.natCast_emod,
    Int.toNat_of_nonneg (hpos w), Int.toNat_of_nonneg (hpos v), Int.emod_emod_of_dvd _ hdvd]

/-- The sum modulo the address size may be taken modulo 2^64 first (R72, R73). -/
theorem effAddr_eq {m : MemExpr} {len : Nat} {s : State} {base index : QWord}
    (hbase : BitVec.ofNat (aszBits m.asz) (baseValue m len s) = base.setWidth (aszBits m.asz))
    (hindex : BitVec.ofNat (aszBits m.asz) (indexValue m s) = index.setWidth (aszBits m.asz)) :
    effAddr m len s = ((base + index + BitVec.ofInt 64 m.disp).setWidth (aszBits m.asz)).setWidth 64 := by
  have hle := aszBits_le m.asz
  rw [effAddr, BitVec.ofInt_add, BitVec.ofInt_add, BitVec.ofInt_natCast, BitVec.ofInt_natCast, hbase, hindex,
    BitVec.setWidth_add _ _ hle, BitVec.setWidth_add _ _ hle, setWidth_ofInt hle]

theorem ofNat_gprZ (s : State) (asz : AddrSize) (r : Fin 16) :
    BitVec.ofNat (aszBits asz) (gprZ s asz r) = (readG s r).setWidth (aszBits asz) := by
  rw [gprZ, BitVec.ofNat_toNat, BitVec.setWidth_eq]

/-- The scaled index is a shift (R71, R72). -/
theorem ofNat_indexValue (m : MemExpr) (s : State) :
    BitVec.ofNat (aszBits m.asz) (indexValue m s) =
      ((m.index.map fun x => readG s x.reg <<< x.scale.val).getD 0#64).setWidth (aszBits m.asz) := by
  cases hx : m.index with
  | none => simp [indexValue, hx]
  | some x =>
    simp only [indexValue, hx, Option.map_some, Option.getD_some]
    rw [BitVec.setWidth_shiftLeft_of_le (aszBits_le _), ← ofNat_gprZ]
    apply BitVec.eq_of_toNat_eq
    simp [Nat.shiftLeft_eq]

theorem ofNat_baseValue_of_register {m : MemExpr} (h : m.rip = false) (len : Nat) (s : State) :
    BitVec.ofNat (aszBits m.asz) (baseValue m len s) =
      ((m.base.map (readG s)).getD 0#64).setWidth (aszBits m.asz) := by
  cases hb : m.base with
  | none => simp [baseValue, h, hb]
  | some r => simp [baseValue, h, hb, ofNat_gprZ]

theorem ofNat_baseValue_of_rip {m : MemExpr} (h : m.rip = true) (len : Nat) (s : State) :
    BitVec.ofNat (aszBits m.asz) (baseValue m len s) =
      (s.pc + BitVec.ofNat 64 len).setWidth (aszBits m.asz) := by
  have hle := aszBits_le m.asz
  rw [baseValue, if_pos h, BitVec.ofNat_add, BitVec.ofNat_toNat, BitVec.setWidth_add _ _ hle,
    BitVec.setWidth_ofNat_of_le hle]

/-- Settles O27: base, index and displacement each count modulo the address size. -/
theorem effectiveAddressIsBasePlusIndexPlusDisplacement :
    Obligations.EffectiveAddressIsBasePlusIndexPlusDisplacement := by
  intro m len s hrip base index sum
  have heff : effAddr m len s = (sum.setWidth (aszBits m.asz)).setWidth 64 :=
    effAddr_eq (ofNat_baseValue_of_register hrip len s) (ofNat_indexValue m s)
  exact ⟨fun h64 => by rw [heff, h64]; simp [aszBits], fun h32 => by rw [heff, h32]; rfl⟩

/-- Settles O28: the address of the next instruction counts modulo the address size too, and there is no index. -/
theorem ripRelativeAddressIsNextInstructionPlusDisplacement :
    Obligations.RipRelativeAddressIsNextInstructionPlusDisplacement := by
  intro m len s hrip hindex sum
  have heff : effAddr m len s = (sum.setWidth (aszBits m.asz)).setWidth 64 := by
    have h := effAddr_eq (ofNat_baseValue_of_rip hrip len s) (ofNat_indexValue m s)
    rwa [hindex, Option.map_none, Option.getD_none, BitVec.add_zero] at h
  exact ⟨fun h64 => by rw [heff, h64]; simp [aszBits], fun h32 => by rw [heff, h32]; rfl⟩

end Sys2Proof.Machine

/-! PROOFS. The range of the exact sums, and where `madd32` wraps (R100, R101, R103, R104, R106). -/

namespace Sys2Proof.Machine

/-! ### Products of two words -/

theorem word_bounds (x : Word16) : -32768 ≤ x.toInt ∧ x.toInt ≤ 32767 :=
  ⟨x.le_toInt, Int.le_of_lt_add_one x.toInt_lt⟩

/-- The least product is that of 8000H and 7FFFH (R104). -/
theorem le_word_mul (x y : Word16) : -1073741824 + 32768 ≤ x.toInt * y.toInt := by
  obtain ⟨hx, hx'⟩ := word_bounds x
  obtain ⟨hy, hy'⟩ := word_bounds y
  have hmin : 0 ≤ (x.toInt + 32768) * (y.toInt + 32768) := mul_nonneg (by omega) (by omega)
  have hmax : 0 ≤ (32767 - x.toInt) * (32767 - y.toInt) := mul_nonneg (by omega) (by omega)
  linarith only [hmin, hmax]

/-- But for 8000H times 8000H a product stays 2^15 below 2^30 (R104): one factor is at most 32767 in absolute value, the
other at most 32768. -/
theorem word_mul_le {x y : Word16} (h : ¬ (x.toInt = -32768 ∧ y.toInt = -32768)) :
    x.toInt * y.toInt ≤ 1073741824 - 32768 := by
  obtain ⟨hx, hx'⟩ := word_bounds x
  obtain ⟨hy, hy'⟩ := word_bounds y
  by_cases hmin : x.toInt = -32768
  · have hlow : 0 ≤ (32768 - x.toInt) * (32767 + y.toInt) := mul_nonneg (by omega) (by omega)
    have hhigh : 0 ≤ (32768 + x.toInt) * (32767 - y.toInt) := mul_nonneg (by omega) (by omega)
    linarith only [hlow, hhigh]
  · have hlow : 0 ≤ (32767 + x.toInt) * (32768 - y.toInt) := mul_nonneg (by omega) (by omega)
    have hhigh : 0 ≤ (32767 - x.toInt) * (32768 + y.toInt) := mul_nonneg (by omega) (by omega)
    linarith only [hlow, hhigh]

theorem word_mul_eq_iff (x y : Word16) :
    x.toInt * y.toInt = 1073741824 ↔ x.toInt = -32768 ∧ y.toInt = -32768 := by
  constructor
  · intro h
    by_contra hne
    have hle := word_mul_le hne
    omega
  · rintro ⟨hx, hy⟩
    rw [hx, hy]; rfl

theorem word_mul_le_two_pow (x y : Word16) : x.toInt * y.toInt ≤ 1073741824 := by
  by_cases h : x.toInt = -32768 ∧ y.toInt = -32768
  · exact ((word_mul_eq_iff x y).2 h).le
  · exact (word_mul_le h).trans (by decide)

/-! ### Sums of two products -/

/-- The doubleword 80008000H is the one whose words are both 8000H. -/
theorem eq_80008000_iff (a : DWord) : a = 0x80008000#32 ↔ lowWord a = -32768 ∧ highWord a = -32768 := by
  constructor
  · rintro rfl
    decide
  · rintro ⟨hlow, hhigh⟩
    have hl : a.extractLsb' 0 16 = 0x8000#16 := BitVec.toInt_inj.1 hlow
    have hh : a.extractLsb' 16 16 = 0x8000#16 := BitVec.toInt_inj.1 hhigh
    calc a = a.extractLsb' 16 16 ++ a.extractLsb' 0 16 := by
          rw [BitVec.extractLsb'_append_extractLsb'_eq_extractLsb' (by decide), BitVec.extractLsb'_eq_self]
      _ = 0x80008000#32 := by rw [hl, hh]; rfl

theorem le_pairSum (a b : DWord) : -2147483648 + 65536 ≤ pairSum a b := by
  have hlow : -1073741824 + 32768 ≤ lowWord a * lowWord b := le_word_mul _ _
  have hhigh : -1073741824 + 32768 ≤ highWord a * highWord b := le_word_mul _ _
  unfold pairSum
  omega

/-- But for all four words 8000H an exact sum stays 2^15 below 2^31 (R103): then one of the two products is below its
greatest value. -/
theorem pairSum_le {a b : DWord} (h : ¬ (a = 0x80008000#32 ∧ b = 0x80008000#32)) :
    pairSum a b ≤ 2147483648 - 32768 := by
  have hlow : lowWord a * lowWord b ≤ 1073741824 := word_mul_le_two_pow _ _
  have hhigh : highWord a * highWord b ≤ 1073741824 := word_mul_le_two_pow _ _
  unfold pairSum
  by_cases hmin : lowWord a = -32768 ∧ lowWord b = -32768
  · obtain ⟨hla, hlb⟩ := hmin
    have hne : ¬ (highWord a = -32768 ∧ highWord b = -32768) := fun ⟨hha, hhb⟩ =>
      h ⟨(eq_80008000_iff a).2 ⟨hla, hha⟩, (eq_80008000_iff b).2 ⟨hlb, hhb⟩⟩
    have hlt : highWord a * highWord b ≤ 1073741824 - 32768 := word_mul_le hne
    omega
  · have hlt : lowWord a * lowWord b ≤ 1073741824 - 32768 := word_mul_le hmin
    omega

theorem pairSum_80008000 : pairSum 0x80008000#32 0x80008000#32 = 2147483648 := by decide

theorem pairSum_eq_iff (a b : DWord) : pairSum a b = 2147483648 ↔ a = 0x80008000#32 ∧ b = 0x80008000#32 := by
  constructor
  · intro h
    by_contra hne
    have hle := pairSum_le hne
    omega
  · rintro ⟨rfl, rfl⟩
    exact pairSum_80008000

theorem pairSum_le_two_pow (a b : DWord) : pairSum a b ≤ 2147483648 := by
  by_cases h : a = 0x80008000#32 ∧ b = 0x80008000#32
  · exact ((pairSum_eq_iff a b).2 h).le
  · exact (pairSum_le h).trans (by decide)

/-- Settles O2: the bounds of a product of two words, for the low and for the high words, and of the sum of the two. -/
theorem productsFitSignedDoublewords : Obligations.ProductsFitSignedDoublewords := fun a b =>
  ⟨⟨le_word_mul _ _, word_mul_le_two_pow _ _⟩, ⟨le_word_mul _ _, word_mul_le_two_pow _ _⟩, word_mul_eq_iff _ _,
    word_mul_eq_iff _ _, ⟨le_pairSum a b, pairSum_le_two_pow a b⟩, pairSum_eq_iff a b⟩

/-- Settles O1: any other exact sum is in the range of a signed doubleword, so reducing it modulo 2^32 changes nothing. -/
theorem maddWrapsOnlyWhenAllWordsAre8000 : Obligations.MaddWrapsOnlyWhenAllWordsAre8000 := by
  refine ⟨by decide, fun a b h => ?_⟩
  have hlo := le_pairSum a b
  have hhi := pairSum_le h
  exact ⟨hlo, hhi, BitVec.toInt_ofInt_eq_self (by decide) (by omega) (by omega)⟩

/-! ### Doubleword by doubleword -/

theorem pairSum_comm (a b : DWord) : pairSum a b = pairSum b a := by
  unfold pairSum
  rw [Int.mul_comm (lowWord a), Int.mul_comm (highWord a)]

theorem madd32_comm (a b : DWord) : madd32 a b = madd32 b a := congrArg (BitVec.ofInt 32) (pairSum_comm a b)

/-- Settles O3: the products commute, so each doubleword does. -/
theorem maddOperandsCommute : Obligations.MaddOperandsCommute :=
  ⟨madd32_comm, fun n a b => congrArg (pack n) (funext fun j => madd32_comm (lane a j) (lane b j))⟩

theorem dwordOf_madd {n j : Nat} (hn : n ≤ 16) (hj : j < n) (a b : VWord) :
    dwordOf (madd n a b) j = madd32 (dwordOf a j) (dwordOf b j) := by
  rw [dwordOf_eq_lane, madd, lane_pack n _ j hn, if_pos hj]; rfl

theorem getLsbD_madd_of_le {n i : Nat} (hn : n ≤ 16) (hi : 32 * n ≤ i) (a b : VWord) :
    (madd n a b).getLsbD i = false := by
  simp [madd, getLsbD_pack n _ i hn, Nat.not_lt.2 hi]

/-- Settles O4: `MADD` packs one `madd32` for each of its doublewords. -/
theorem maddActsOnEachDoubleword : Obligations.MaddActsOnEachDoubleword := fun _ a b hn =>
  ⟨fun _ hj => dwordOf_madd hn hj a b, fun _ hi => getLsbD_madd_of_le hn hi a b⟩

/-- A doubleword of `MADD` is what the source's Operation section assigns to it (R100, R101). -/
theorem dwordOf_madd_eq_maddDword {n j : Nat} (hn : n ≤ 16) (hj : j < n) (a b : VWord) :
    dwordOf (madd n a b) j = maddDword a b j :=
  (dwordOf_madd hn hj a b).trans (madd32_lane a b j)

theorem dwordOf_maddKeep {n j : Nat} (hn : n ≤ 16) (hj : j < n) (old a b : VWord) :
    dwordOf (maddKeep n old a b) j = maddDword a b j := by
  rw [dwordOf_eq_lane, maddKeep, lane_pack 16 _ j (Nat.le_refl 16), if_pos (hj.trans_le hn), if_pos hj, madd32_lane]

/-- The bits above the n doublewords that `MADD` writes are the old ones (R112). -/
theorem getLsbD_maddKeep_of_le {n i : Nat} (hi : 32 * n ≤ i) (old a b : VWord) :
    (maddKeep n old a b).getLsbD i = old.getLsbD i := by
  rw [maddKeep, getLsbD_pack 16 _ i (Nat.le_refl 16), if_neg (show ¬ i / 32 < n by omega)]
  have hlane : (lane old (i / 32)).getLsbD (i % 32) = old.getLsbD i := by
    simp [lane, Nat.mod_lt, Nat.div_add_mod]
  by_cases h512 : i < 512
  · simp [hlane, h512]
  · simp [h512, BitVec.getLsbD_of_ge old i (by omega)]

/-- Two doublewords fit an MMX register (R21). -/
theorem setWidth_madd_two (a b : VWord) : ((madd 2 a b).setWidth 64).setWidth 512 = madd 2 a b := by
  have hlt : (madd 2 a b).toNat < 2 ^ 64 := pack_toNat_lt 2 _ (by decide)
  apply BitVec.eq_of_toNat_eq
  rw [BitVec.toNat_setWidth_of_le (by decide), BitVec.toNat_setWidth, Nat.mod_eq_of_lt hlt]

end Sys2Proof.Machine

/-! PROOFS. An instruction completes exactly where it is ready, and what the two legacy forms then write (R108, R110,
R112, R173). -/

namespace Sys2Proof.Machine

/-- Settles O13: only the successor, the form's premises or its memory operand can stop an instruction. -/
theorem instructionsCompleteExactlyWhenReady : Obligations.InstructionsCompleteExactlyWhenReady := by
  intro i s
  obtain ⟨src, write, hexec, hreg, hmem, -⟩ := exec_shape i s
  have hsrc : (∃ v, src = .ok v) ↔ ∀ m, i.memOperand = some m → operandReady i.form (effAddr m i.len s) s = true := by
    cases hm : i.memOperand with
    | none => simp [hreg hm]
    | some m => simp [hmem m hm, loadOperand_eq_ok]
  simp only [hexec, complete_eq_next, ready_iff, ← hsrc]
  constructor
  · rintro ⟨t, hin, hform, v, hv, -⟩
    exact ⟨hin, hform, v, hv⟩
  · rintro ⟨hin, hform, v, hv⟩
    exact ⟨_, hin, hform, v, hv, rfl⟩

/-- A ready instruction completes with the value of its operand. -/
theorem complete_of_ready {i : Instr} {s : State} (h : ready i s = true) {n : Nat} {rm : RM n}
    (hrm : ∀ m, rm = .mem m → i.memOperand = some m) (readReg : Fin n → VWord) (write : VWord → State) :
    complete i.form i.len (operand i.form i.len readReg s rm) write s =
      .next (advancePc i.len (write (rmValue i.form i.len readReg s rm))) := by
  obtain ⟨hin, hform, hmem⟩ := (ready_iff i s).1 h
  exact (complete_eq_next ..).2
    ⟨hin, hform, _, operand_eq_rmValue _ _ _ _ _ fun m hm => hmem m (hrm m hm), rfl⟩

@[simp] theorem readVec16_advancePc (len : Nat) (s : State) (i : Fin 16) :
    readVec16 (advancePc len s) i = readVec16 s i := rfl

@[simp] theorem readVec16_writeVec16_self (s : State) (i : Fin 16) (v : VWord) : readVec16 (writeVec16 s i v) i = v :=
  readVec_writeVec_self s _ v

/-- Settles O6: the destination, read back, is `MADD` of two doublewords. -/
theorem mmxFormCompletesWithTwoDoublewords : Obligations.MmxFormCompletesWithTwoDoublewords := by
  intro dst src len s h
  refine ⟨_, complete_of_ready h (by rintro m rfl; rfl) (readMm s) _, fun j hj => ?_, rfl⟩
  rw [readMm_advancePc, readMm_writeMm, if_pos rfl, setWidth_madd_two]
  exact dwordOf_madd_eq_maddDword (by decide) hj _ _

/-- Settles O7: the destination, read back, is `MADD` of four doublewords below its old upper bits. -/
theorem sseFormCompletesAndKeepsUpperBits : Obligations.SseFormCompletesAndKeepsUpperBits := by
  intro dst src len s h
  refine ⟨_, complete_of_ready h (by rintro m rfl; rfl) (readVec16 s) _, fun j hj => ?_, fun i hi => ?_, rfl⟩
  · rw [readVec16_advancePc, readVec16_writeVec16_self]
    exact dwordOf_maddKeep (by decide) hj _ _ _
  · rw [readVec16_advancePc, readVec16_writeVec16_self]
    exact getLsbD_maddKeep_of_le hi _ _ _

end Sys2Proof.Machine

/-! PROOFS. What the two VEX forms write (R120, R121). -/

namespace Sys2Proof.Machine

/-- A ready VEX form completes with `MADD` of its KL doublewords, zero-extended to the whole register. -/
theorem vexMadd_of_ready {i : Instr} {s : State} (h : ready i s = true) {n : Nat} (hn : formKl i.form = n)
    (dst src1 : Fin 16) (src2 : RM 16) (hsrc2 : ∀ m, src2 = .mem m → i.memOperand = some m) :
    ∃ t, vexMadd i.form dst src1 src2 i.len s = .next t ∧
      (∀ j, j < n →
        dwordOf (readVec16 t dst) j = maddDword (readVec16 s src1) (rmValue i.form i.len (readVec16 s) s src2) j) ∧
      (∀ b, 32 * n ≤ b → (readVec16 t dst).getLsbD b = false) ∧
      t.pc = s.pc + BitVec.ofNat 64 i.len := by
  obtain ⟨-, hkl⟩ := formKl_spec i.form
  subst hn
  refine ⟨_, complete_of_ready h hsrc2 (readVec16 s) _, fun j hj => ?_, fun b hb => ?_, rfl⟩
  · rw [readVec16_advancePc, readVec16_writeVec16_self]
    exact dwordOf_madd_eq_maddDword hkl hj _ _
  · rw [readVec16_advancePc, readVec16_writeVec16_self]
    exact getLsbD_madd_of_le hkl hb _ _

/-- Settles O8: of the VEX forms, the one with four doublewords. -/
theorem vex128FormCompletesAndZeroesUpperBits : Obligations.Vex128FormCompletesAndZeroesUpperBits :=
  fun dst src1 src2 _ _ h =>
    vexMadd_of_ready h (show formKl .vex128 = 4 by decide) dst src1 src2 (by rintro m rfl; rfl)

/-- Settles O9: of the VEX forms, the one with eight doublewords. -/
theorem vex256FormCompletesAndZeroesUpperBits : Obligations.Vex256FormCompletesAndZeroesUpperBits :=
  fun dst src1 src2 _ _ h =>
    vexMadd_of_ready h (show formKl .vex256 = 8 by decide) dst src1 src2 (by rintro m rfl; rfl)

end Sys2Proof.Machine

/-! PROOFS. `MADDK` doubleword by doubleword, and which bits of the writemask it reads (R133, R134). -/

namespace Sys2Proof.Machine

theorem dwordOf_maddk {n j : Nat} (hn : n ≤ 16) (hj : j < n) (old a b : VWord) (m : QWord) (z : Bool) :
    dwordOf (maddk n old a b m z) j =
      if m.getLsbD j = true then madd32 (dwordOf a j) (dwordOf b j) else if z = true then 0#32 else dwordOf old j := by
  rw [dwordOf_eq_lane, maddk, lane_pack n _ j hn, if_pos hj]; rfl

theorem getLsbD_maddk_of_le {n i : Nat} (hn : n ≤ 16) (hi : 32 * n ≤ i) (old a b : VWord) (m : QWord) (z : Bool) :
    (maddk n old a b m z).getLsbD i = false := by
  simp [maddk, getLsbD_pack n _ i hn, Nat.not_lt.2 hi]

/-- Settles O5: `MADDK` packs n doublewords, each chosen by its mask bit and the masking mode. -/
theorem maskedMaddActsOnEachDoubleword : Obligations.MaskedMaddActsOnEachDoubleword := by
  intro n old a b m z hn
  refine ⟨fun j hj => ?_, fun i hi => getLsbD_maddk_of_le hn hi old a b m z⟩
  rw [dwordOf_maddk hn hj]
  exact ⟨fun hm => by simp [hm], fun hm hz => by simp [hm, hz], fun hm hz => by simp [hm, hz]⟩

theorem pack_congr {n : Nat} {f g : Nat → DWord} (h : ∀ j, j < n → f j = g j) : pack n f = pack n g := by
  induction n with
  | zero => rfl
  | succ n ih => rw [pack, pack, ih fun j hj => h j (by omega), h n (Nat.lt_succ_self n)]

/-- `MADDK` reads the n low bits of the mask only (R133). -/
theorem maddk_congr_mask {n : Nat} {m m' : QWord} (h : ∀ j, j < n → m.getLsbD j = m'.getLsbD j) (old a b : VWord)
    (z : Bool) : maddk n old a b m z = maddk n old a b m' z :=
  pack_congr fun j hj => by rw [h j hj]

/-- With every mask bit set `MADDK` is `MADD` (R134). -/
theorem maddk_allOnes {n : Nat} (hn : n ≤ 64) (old a b : VWord) (z : Bool) :
    maddk n old a b (BitVec.allOnes 64) z = madd n a b :=
  pack_congr fun j hj => by simp only [BitVec.getLsbD_allOnes, hj.trans_le hn, decide_true, if_true]

@[simp] theorem writemask_zero (s : State) : writemask s 0 = BitVec.allOnes 64 := rfl

theorem writemask_of_ne_zero (s : State) {k : Fin 8} (h : k ≠ 0) : writemask s k = readK s k := if_neg h

/-- A mask bit is set where there is no writemask or the opmask register has it (R134). -/
theorem getLsbD_writemask (s : State) (k : Fin 8) {j : Nat} (hj : j < 64) :
    (writemask s k).getLsbD j = true ↔ k = 0 ∨ (readK s k).getLsbD j = true := by
  by_cases hk : k = 0
  · simp only [hk, writemask_zero, BitVec.getLsbD_allOnes, hj, decide_true, true_or]
  · simp [writemask_of_ne_zero s hk, hk]

end Sys2Proof.Machine

/-! PROOFS. What the three EVEX forms write, and what they read of the opmask registers (R130 to R135). -/

namespace Sys2Proof.Machine

/-! ### Completion under a mask -/

/-- A ready EVEX form completes with `MADDK` of its KL doublewords under the writemask, zero-extended to the whole
register. -/
theorem evexMadd_of_ready {i : Instr} {s : State} (h : ready i s = true) {n : Nat} (hn : formKl i.form = n)
    (dst src1 : Fin 32) (src2 : RM 32) (k : Fin 8) (z : Bool) (hsrc2 : ∀ m, src2 = .mem m → i.memOperand = some m) :
    ∃ t, evexMadd i.form dst src1 src2 k z i.len s = .next t ∧
      (∀ j, j < n → dwordOf (readVec t dst) j =
        if k = 0 ∨ (readK s k).getLsbD j = true then
          maddDword (readVec s src1) (rmValue i.form i.len (readVec s) s src2) j
        else if z = true then 0#32 else dwordOf (readVec s dst) j) ∧
      (∀ b, 32 * n ≤ b → (readVec t dst).getLsbD b = false) ∧
      t.pc = s.pc + BitVec.ofNat 64 i.len := by
  obtain ⟨-, hkl⟩ := formKl_spec i.form
  subst hn
  refine ⟨_, complete_of_ready h hsrc2 (readVec s) _, fun j hj => ?_, fun b hb => ?_, rfl⟩
  · rw [readVec_advancePc, readVec_writeVec_self, dwordOf_maddk hkl hj, dwordOf_eq_lane, dwordOf_eq_lane, madd32_lane]
    simp only [getLsbD_writemask s k (show j < 64 by omega)]
  · rw [readVec_advancePc, readVec_writeVec_self]
    exact getLsbD_maddk_of_le hkl hb _ _ _ _ _

/-- Settles O10: of the EVEX forms, the one with four doublewords. -/
theorem evex128FormCompletesUnderMask : Obligations.Evex128FormCompletesUnderMask :=
  fun dst src1 src2 k z _ _ h =>
    evexMadd_of_ready h (show formKl .evex128 = 4 by decide) dst src1 src2 k z (by rintro m rfl; rfl)

/-- Settles O11: of the EVEX forms, the one with eight doublewords. -/
theorem evex256FormCompletesUnderMask : Obligations.Evex256FormCompletesUnderMask :=
  fun dst src1 src2 k z _ _ h =>
    evexMadd_of_ready h (show formKl .evex256 = 8 by decide) dst src1 src2 k z (by rintro m rfl; rfl)

/-- Settles O12: of the EVEX forms, the one with sixteen doublewords, above which the register has no bits. -/
theorem evex512FormCompletesUnderMask : Obligations.Evex512FormCompletesUnderMask := by
  intro dst src1 src2 k z len s h
  obtain ⟨t, hexec, hdwords, -, hpc⟩ :=
    evexMadd_of_ready h (show formKl .evex512 = 16 by decide) dst src1 src2 k z (by rintro m rfl; rfl)
  exact ⟨t, hexec, hdwords, hpc⟩

/-! ### Other opmask registers -/

/-- A completion does not look at the opmask registers: with others it completes too, and carries them over, where
its write does. -/
theorem complete_with_opmasks {f : Form} {len : Nat} {src : Except Fault VWord} {write write' : VWord → State}
    {s t : State} {k' : Vector QWord 8} (hwrite : ∀ v, write' v = { write v with k := k' })
    (h : complete f len src write s = .next t) :
    complete f len src write' { s with k := k' } = .next { t with k := k' } := by
  obtain ⟨hin, hform, v, hv, rfl⟩ := (complete_eq_next ..).1 h
  exact (complete_eq_next ..).2 ⟨hin, hform, v, hv, by rw [hwrite]; rfl⟩

/-- Two opmask files that agree in the low bits of the writemask register give `MADDK` the same mask bits (R134). -/
theorem getLsbD_writemask_congr {s s' : State} {k : Fin 8} {j : Nat}
    (h : k ≠ 0 → (readK s k).getLsbD j = (readK s' k).getLsbD j) :
    (writemask s k).getLsbD j = (writemask s' k).getLsbD j := by
  by_cases hk : k = 0
  · rw [hk, writemask_zero, writemask_zero]
  · rw [writemask_of_ne_zero s hk, writemask_of_ne_zero s' hk, h hk]

/-- An EVEX form reads the KL low bits of its writemask register, and no other bit of the opmask registers. -/
theorem evexMadd_with_opmasks {f : Form} {dst src1 : Fin 32} {src2 : RM 32} {k : Fin 8} {z : Bool} {len : Nat}
    {s t : State} {k' : Vector QWord 8}
    (hk : ∀ j, j < formKl f → k ≠ 0 → (readK s k).getLsbD j = (k'.get k).getLsbD j)
    (h : evexMadd f dst src1 src2 k z len s = .next t) :
    evexMadd f dst src1 src2 k z len { s with k := k' } = .next { t with k := k' } := by
  refine complete_with_opmasks (fun v => ?_) h
  have hmask : ∀ j, j < formKl f → (writemask { s with k := k' } k).getLsbD j = (writemask s k).getLsbD j :=
    fun j hj => getLsbD_writemask_congr fun hk0 => (hk j hj hk0).symm
  rw [maddk_congr_mask hmask]
  rfl

/-- Settles O32: no form but EVEX reads an opmask register, and EVEX reads the low bits of one. -/
theorem onlyLowMaskBitsAreRead : Obligations.OnlyLowMaskBitsAreRead := by
  intro i s t k' hk h
  cases i with
  | pmaddwdMmx dst src len => exact complete_with_opmasks (fun _ => rfl) h
  | pmaddwdSse dst src len => exact complete_with_opmasks (fun _ => rfl) h
  | vpmaddwdVex128 dst src1 src2 len => exact complete_with_opmasks (fun _ => rfl) h
  | vpmaddwdVex256 dst src1 src2 len => exact complete_with_opmasks (fun _ => rfl) h
  | vpmaddwdEvex128 dst src1 src2 k z len => exact evexMadd_with_opmasks hk h
  | vpmaddwdEvex256 dst src1 src2 k z len => exact evexMadd_with_opmasks hk h
  | vpmaddwdEvex512 dst src1 src2 k z len => exact evexMadd_with_opmasks hk h

/-! ### No writemask -/

/-- Forms that are both ready differ in their operand and their write only. -/
theorem complete_eq_of_formReady {f g : Form} {s : State} (hf : formReady f s = true) (hg : formReady g s = true)
    (len : Nat) (src : Except Fault VWord) (write : VWord → State) :
    complete f len src write s = complete g len src write s := by
  simp only [complete, (entryFault_eq_none f s).2 hf, (entryFault_eq_none g s).2 hg]

/-- On the same operand, form EVEX128 without a writemask answers what form VEX128 does. -/
theorem evexMadd_unmasked_eq_vexMadd {s : State} (hvex : formReady .vex128 s = true)
    (hevex : formReady .evex128 s = true) (dst src1 : Fin 16) (src2 : RM 32) (src2' : RM 16) (len : Nat)
    (hsrc : operand .evex128 len (readVec s) s src2 = operand .vex128 len (readVec16 s) s src2') :
    evexMadd .evex128 (dst.castLE (by decide)) (src1.castLE (by decide)) src2 0 false len s =
      vexMadd .vex128 dst src1 src2' len s := by
  have hkl : formKl .evex128 ≤ 64 := by decide
  simp only [evexMadd, vexMadd, writemask_zero, maddk_allOnes hkl, hsrc]
  exact complete_eq_of_formReady hevex hvex len _ _

/-- Settles O33: without a writemask every doubleword is computed, and both forms read the same operand. -/
theorem unmaskedEvex128AgreesWithVex128 : Obligations.UnmaskedEvex128AgreesWithVex128 := by
  intro dst src1 n len s hvex hevex
  refine ⟨?reg, fun m => ?mem⟩
  case reg => exact evexMadd_unmasked_eq_vexMadd hvex hevex dst src1 (.reg (n.castLE (by decide))) (.reg n) len rfl
  case mem => exact evexMadd_unmasked_eq_vexMadd hvex hevex dst src1 (.mem m) (.mem m) len rfl

end Sys2Proof.Machine

/-! PROOFS. Which fault stops an instruction: the form's own faults in their order, then those of its memory operand
(R50, R141, R143 to R149). -/

namespace Sys2Proof.Machine

/-! ### The faults of a form -/

/-- What stops a form before its operand stops the instruction (R149). -/
theorem exec_of_entryFault {i : Instr} {s : State} {e : Fault} (hin : inSpace s.cfg (s.pc.toNat + i.len) 1 = true)
    (he : entryFault i.form s = some e) : exec i s = .fault e := by
  obtain ⟨src, write, hexec, -⟩ := exec_shape i s
  simp [hexec, complete, hin, he, raise]

theorem entryFault_of_not_supported {f : Form} {s : State} (h : formSupported s.cfg f = false) :
    entryFault f s = some (.ud s.pc) := by
  simp [entryFault, h]

/-- A form that is not enabled is `UD` whether the processor has it or not (R143, R144). -/
theorem entryFault_of_not_enabled {f : Form} {s : State} (h : s.cfg.os.on f = false) :
    entryFault f s = some (.ud s.pc) := by
  cases hs : formSupported s.cfg f with
  | false => exact entryFault_of_not_supported hs
  | true => simp [entryFault, hs, h]

theorem entryFault_of_not_tsClear {f : Form} {s : State} (hs : formSupported s.cfg f = true)
    (hos : s.cfg.os.on f = true) (hts : s.cfg.tsClear = false) : entryFault f s = some (.nm s.pc) := by
  simp [entryFault, hs, hos, hts]

theorem entryFault_mmx_of_x87Pending {s : State} (hs : formSupported s.cfg .mmx = true)
    (hos : s.cfg.os.on .mmx = true) (hts : s.cfg.tsClear = true) (hx : s.cfg.x87Pending = true) :
    entryFault .mmx s = some (.mf s.pc) := by
  simp [entryFault, hs, hos, hts, hx]

/-- Settles O17: either reason makes the form unsupported, which is tested first. -/
theorem absentFormRaisesUd : Obligations.AbsentFormRaisesUd := by
  intro i s hin h
  refine exec_of_entryFault hin (entryFault_of_not_supported ?_)
  generalize i.form = f at h
  rcases h with hfeat | hvl
  · have habsent : featurePresent s.cfg.feat f = false := by
      cases f <;> simpa [featurePresent] using hfeat
    simp [formSupported, habsent]
  · simp [formSupported, Nat.not_le.2 hvl]

/-- Settles O18: the test of `OsEnabled` answers what the test before it does. -/
theorem disabledFormRaisesUd : Obligations.DisabledFormRaisesUd :=
  fun _ _ hin hos => exec_of_entryFault hin (entryFault_of_not_enabled hos)

/-- Settles O19: `TsClear` is tested before the operand is looked at. -/
theorem taskSwitchedRaisesNm : Obligations.TaskSwitchedRaisesNm :=
  fun _ _ hin hs hos hts => exec_of_entryFault hin (entryFault_of_not_tsClear hs hos hts)

/-! ### Every stop of an instruction -/

/-- A fault of an instruction is one of its form, or one of its memory operand (R149). -/
theorem exec_eq_fault {i : Instr} {s : State} {e : Fault} (h : exec i s = .fault e) :
    entryFault i.form s = some e ∨
      ∃ m, i.memOperand = some m ∧ loadOperand i.form (effAddr m i.len s) s = .error e := by
  obtain ⟨src, write, hexec, hreg, hmem, -⟩ := exec_shape i s
  rw [hexec] at h
  rcases complete_cases i.form i.len src write s with
    ⟨-, hr⟩ | ⟨-, ⟨e', he, hr⟩ | ⟨-, ⟨e', he, hr⟩ | ⟨v, -, hr⟩⟩⟩
  case inl => cases hr.symm.trans h
  case inr.inl => cases hr.symm.trans h; exact .inl he
  case inr.inr.inl =>
    cases hr.symm.trans h
    cases hm : i.memOperand with
    | none => obtain ⟨v, hv⟩ := hreg hm; cases hv.symm.trans he
    | some m => exact .inr ⟨m, rfl, (hmem m hm).symm.trans he⟩
  case inr.inr.inr => cases hr.symm.trans h

/-- The one refusal of an instruction is that of its successor's address (R34). -/
theorem exec_eq_refused {i : Instr} {s : State} {r : Refusal} (h : exec i s = .refused r) : r = .pcRange := by
  obtain ⟨src, write, hexec, -⟩ := exec_shape i s
  rw [hexec] at h
  rcases complete_cases i.form i.len src write s with
    ⟨-, hr⟩ | ⟨-, ⟨e, -, hr⟩ | ⟨-, ⟨e, -, hr⟩ | ⟨v, -, hr⟩⟩⟩ <;> cases hr.symm.trans h
  rfl

/-- Settles O25: the faults of a form and those of a memory operand are on the list. -/
theorem instructionsStopOnlyForStatedReasons : Obligations.InstructionsStopOnlyForStatedReasons := by
  refine fun i s => ⟨fun r => exec_eq_refused, fun e h => ?_⟩
  rcases exec_eq_fault h with hentry | ⟨m, hm, hload⟩
  · rcases entryFault_eq_some hentry with hud | hnm | ⟨hmmx, hmf⟩
    · exact .inl hud
    · exact .inr (.inl hnm)
    · exact .inr (.inr (.inl ⟨hmf, hmmx⟩))
  · refine .inr (.inr (.inr ⟨m, hm, ?_⟩))
    rcases loadOperand_eq_error hload with ⟨hsse, hgp⟩ | hmf
    · rw [hsse] at hgp; exact .inl ⟨hgp, hsse⟩
    · exact .inr hmf

/-- Settles O20: form MMX tests `x87_pending` before its operand, and `MF` stands on the list of stops for that form
only. -/
theorem pendingX87RaisesMfOnMmxFormOnly : Obligations.PendingX87RaisesMfOnMmxFormOnly := by
  refine ⟨fun dst src len s hin hs hos hts hx => ?_, fun i s pc hform h => ?_⟩
  · exact exec_of_entryFault (i := .pmaddwdMmx dst src len) hin (entryFault_mmx_of_x87Pending hs hos hts hx)
  · rcases (instructionsStopOnlyForStatedReasons i s).2 _ h with hf | hf | ⟨-, hmmx⟩ | ⟨m, -, ⟨hf, -⟩ | hf⟩
    case inr.inr.inl => exact hform hmmx
    all_goals cases hf

/-! ### The faults of a memory operand -/

theorem extractLsb'_four_eq_zero (a : QWord) : a.extractLsb' 0 4 = 0#4 ↔ a.toNat % 16 = 0 := by
  rw [← BitVec.toNat_inj, BitVec.extractLsb'_toNat]
  rfl

theorem loadOperand_sse_of_misaligned {a : QWord} {s : State} (h : a.extractLsb' 0 4 ≠ 0#4) :
    loadOperand .sse a s = .error (.gpAlign s.pc a 16) := by
  simp [loadOperand, mt (extractLsb'_four_eq_zero a).2 h, formBytes, formVl]

/-- An operand that is not admitted is a `MemFault`, misaligned or not, but for the alignment that form SSE tests first
(R147 to R149). -/
theorem loadOperand_of_not_admitted {f : Form} {a : QWord} {s : State} (halign : f = .sse → a.extractLsb' 0 4 = 0#4)
    (h : admits s.cfg .read a.toNat (formBytes f) = false) :
    loadOperand f a s = .error (.memFault s.pc a (formBytes f)) := by
  have hsse : f = .sse → a.toNat % 16 = 0 := fun hf => (extractLsb'_four_eq_zero a).1 (halign hf)
  simpa [loadOperand, h] using hsse

/-- Settles O21: form SSE tests the alignment of its operand first, and `GP_Align` stands on the list of stops for that
form only. -/
theorem misalignedSseOperandRaisesGpAlign : Obligations.MisalignedSseOperandRaisesGpAlign := by
  refine ⟨fun dst m len s hin hready hmis => ?_, fun i s pc a n hform h => ?_⟩
  · exact exec_of_loadOperand_error (i := .pmaddwdSse dst (.mem m) len) hin hready rfl
      (loadOperand_sse_of_misaligned hmis)
  · rcases (instructionsStopOnlyForStatedReasons i s).2 _ h with hf | hf | ⟨hf, -⟩ | ⟨m, -, ⟨-, hsse⟩ | hf⟩
    case inr.inr.inr.inl => exact hform hsse
    all_goals cases hf

/-- Settles O22: the operand is read in full in every form, before any mask is looked at. -/
theorem unadmittedOperandRaisesMemFault : Obligations.UnadmittedOperandRaisesMemFault :=
  fun _ _ _ hin hready hm halign hadm =>
    exec_of_loadOperand_error hin hready hm (loadOperand_of_not_admitted halign hadm)

end Sys2Proof.Machine

/-! PROOFS. The faults of a step: where they come from, which bytes of code they need, and what they leave (R12, R141,
R142, R150). -/

namespace Sys2Proof.Machine

/-! ### Where a fault of a step comes from -/

/-- A fault of an unmarked state is raised by the decoder, by the fetch, or by the instruction decoded (R88, R142). -/
theorem step_eq_fault {s : State} {e : Fault} (hm : s.mark = .clear) (h : step s = .fault e) :
    e = .ud s.pc ∨
    (decode s.cfg.mode64 (bytesAtPc s) = .short ∧ ∃ a, e = .fetchFault s.pc a) ∨
    ∃ i, exec i s = .fault e := by
  simp only [step, hm, fetchDecode] at h
  cases hd : decode s.cfg.mode64 (bytesAtPc s) with
  | instr i => simp only [hd] at h; exact .inr (.inr ⟨i, h⟩)
  | ud => simp only [hd] at h; cases h; exact .inl rfl
  | refused r => simp only [hd] at h; cases h
  | short =>
    simp only [hd] at h
    cases hin : inSpace s.cfg (s.pc.toNat + (bytesAtPc s).length) 1 with
    | false => simp only [hin] at h; cases h
    | true => simp only [hin] at h; cases h; exact .inr (.inl ⟨rfl, _, rfl⟩)

/-- Settles O36: the decoder and the fetch record pc, and so does every fault on the list of an instruction's stops. -/
theorem everyFaultRecordsPc : Obligations.EveryFaultRecordsPc := by
  intro s e hm h
  rcases step_eq_fault hm h with rfl | ⟨-, a, rfl⟩ | ⟨i, he⟩
  · rfl
  · rfl
  · rcases (instructionsStopOnlyForStatedReasons i s).2 _ he with
      rfl | rfl | ⟨rfl, -⟩ | ⟨m, -, ⟨rfl, -⟩ | rfl⟩ <;> rfl

/-! ### Bytes that cannot be fetched -/

/-- A step whose decoder needs a byte inside the address range that cannot be fetched is a `FetchFault` (R142). -/
theorem step_of_short_inSpace {s : State} (hm : s.mark = .clear) (hd : decode s.cfg.mode64 (bytesAtPc s) = .short)
    (h : inSpace s.cfg (s.pc.toNat + (bytesAtPc s).length) 1 = true) :
    step s = .fault (.fetchFault s.pc (s.pc + BitVec.ofNat 64 (bytesAtPc s).length)) := by
  simp [step, hm, fetchDecode, hd, h, raise, BitVec.ofNat_add]

/-- Memory lists every byte of the run of legacy bytes at pc, since none of them is 00H (log entry 12). -/
theorem splitRun_length_le_mem {s : State} {bs : List Byte} (hc : codeAt s bs) :
    (splitRun bs).1.length ≤ s.mem.length := by
  have hpre : (splitRun bs).1 <+: bs := ⟨_, splitRun_eq bs⟩
  refine s.mem.nonzero_length_le _ s.pc.toNat (fun j hj => ?_) (splitRun_nonzero bs)
  rw [(hc j (hj.trans_le hpre.length_le)).2, hpre.getElem hj]

/-- Where bytes at pc are enough to decode, so are the bytes that the decoder is given: they go on behind those, or fill
the fetch window, which always suffices (log entry 12). -/
theorem decode_bytesAtPc_ne_short {s : State} {bs : List Byte} {mode64 : Bool} (hc : codeAt s bs)
    (h : decode mode64 bs ≠ .short) : decode mode64 (bytesAtPc s) ≠ .short := by
  rcases Nat.le_total bs.length (fetchWindow s) with hle | hge
  · obtain ⟨n, hn⟩ := Nat.exists_eq_add_of_le hle
    rw [bytesAtPc, hn, fetchBytes_append s bs n _ hc, decodingReadsOnlyTheBytesItNeeds.1 _ _ _ h]
    exact h
  · have hlen : (bs.take (fetchWindow s)).length = fetchWindow s := List.length_take_of_le hge
    have hcode : codeAt s (bs.take (fetchWindow s)) := fun j hj => by simpa using hc j (by omega)
    have hbytes : bytesAtPc s = bs.take (fetchWindow s) := by
      have happend := fetchBytes_append s _ 0 _ hcode
      simpa only [bytesAtPc, hlen, Nat.add_zero, fetchBytes, List.append_nil] using happend
    intro hshort
    rw [hbytes] at hshort
    have hrun := splitRun_length_le_mem hcode
    have hneeds := decode_short hshort
    have hwindow : fetchWindow s = s.mem.length + 16 := rfl
    omega

/-- Settles O35: what the decoder is given ends at the byte that cannot be fetched; where the decoder has enough, a
fault is its own or the instruction's, and neither is a `FetchFault`. -/
theorem unfetchableByteRaisesFetchFault : Obligations.UnfetchableByteRaisesFetchFault := by
  refine ⟨fun s bs hm hc hd hin hadm => ?_, fun s bs pc a hm hc hd h => ?_⟩
  · have hbytes := bytesAtPc_eq hc (length_le_fetchWindow_of_short hc hd) hadm
    have hstep := step_of_short_inSpace hm (by rw [hbytes, hd]) (by rw [hbytes, hin])
    rwa [hbytes] at hstep
  · rcases step_eq_fault hm h with hf | ⟨hshort, -⟩ | ⟨i, he⟩
    · cases hf
    · exact decode_bytesAtPc_ne_short hc hd hshort
    · rcases (instructionsStopOnlyForStatedReasons i s).2 _ he with
        hf | hf | ⟨hf, -⟩ | ⟨m, -, ⟨hf, -⟩ | hf⟩ <;> cases hf

/-! ### What a fault leaves -/

/-- A state marked faulted answers its fault again (R12, R150). -/
theorem step_of_mark_faulted {s : State} {e : Fault} (h : s.mark = .faulted e) : step s = .fault e := by
  simp [step, h]

/-- A run whose next step faults only gains the mark, however many steps follow (R12, R150). -/
theorem run_succ_of_fault {s : State} {e : Fault} (hs : isSettled s = false) (he : step s = .fault e) (n : Nat) :
    run (n + 1) s = markWith s (.faulted e) := by
  have hfirst : runStep s = markWith s (.faulted e) := by simp [runStep, hs, he]
  rw [run, hfirst]
  exact run_of_isSettled (isSettled_of_mark (by simp)) n

/-- Settles O37: the run stops in the state marked faulted, and a marked state is not final and steps no further. -/
theorem faultsArePreciseAndTerminal : Obligations.FaultsArePreciseAndTerminal := by
  intro s e n hs he
  rw [run_succ_of_fault hs he n]
  exact ⟨rfl, isFinal_eq_false_of_mark (by simp), step_of_mark_faulted (markWith_mark ..)⟩

end Sys2Proof.Machine

/-! PROOFS. Every run ends, because pc only grows, and a final state stays (R33, R34, R90, R176). -/

namespace Sys2Proof.Machine

/-! ### One step of a run that has not ended -/

theorem runStep_of_next {s t : State} (hs : isSettled s = false) (ht : step s = .next t) : runStep s = t := by
  simp [runStep, hs, ht]

theorem runStep_of_fault {s : State} {e : Fault} (hs : isSettled s = false) (he : step s = .fault e) :
    runStep s = markWith s (.faulted e) := by
  simp [runStep, hs, he]

/-- One step of a run ends it or moves pc up by at least the shortest instruction's length (R33, R90, R176). -/
theorem isSettled_runStep_or_pc_add_three_le (s : State) :
    isSettled (runStep s) = true ∨ s.pc.toNat + 3 ≤ (runStep s).pc.toNat := by
  cases hs : isSettled s with
  | true => left; rwa [runStep_of_isSettled hs]
  | false =>
    cases hstep : step s with
    | next t =>
      obtain ⟨i, -, hlen, -, hpc⟩ := stepsAdvancePcByTheInstructionLength s t hstep
      right
      rw [runStep_of_next hs hstep, hpc]
      exact Nat.add_le_add_left hlen _
    | fault e => left; rw [runStep_of_fault hs hstep]; exact isSettled_of_mark (by simp)
    | refused r => left; rw [runStep_of_refused hs hstep]; exact isSettled_of_mark (by simp)

/-! ### How many steps suffice -/

/-- A run has ended once its steps, of at least three bytes each, would take pc past 64 bits. -/
theorem isSettled_run_of_two_pow_le {n : Nat} {s : State} (h : 2 ^ 64 ≤ s.pc.toNat + 3 * n) :
    isSettled (run n s) = true := by
  induction n generalizing s with
  | zero => exact absurd s.pc.isLt (by omega)
  | succ n ih =>
    rw [run]
    rcases isSettled_runStep_or_pc_add_three_le s with hsettled | hpc
    · rwa [run_of_isSettled hsettled]
    · exact ih (by omega)

/-- Settles O44: 2^63 steps of at least three bytes exceed the 64 bits of pc. -/
theorem everyRunEnds : Obligations.EveryRunEnds :=
  fun _ => ⟨2 ^ 63, Nat.le_refl _, isSettled_run_of_two_pow_le (by omega)⟩

/-! ### A run at its end -/

/-- Memory does not decide whether a state is final: no byte is fetched at `end_addr` (R176). -/
theorem isFinal_with_mem (s : State) (m : Memory) : isFinal { s with mem := m } = isFinal s := rfl

theorem isSettled_of_isFinal {s : State} (h : isFinal s = true) : isSettled s = true := by
  simp [isSettled, h]

/-- Settles O39: the state with other memory is final too, and so an ended run. -/
theorem finalStatesStay : Obligations.FinalStatesStay :=
  fun s m n h => run_of_isSettled (isSettled_of_isFinal ((isFinal_with_mem s m).trans h)) n

end Sys2Proof.Machine

/-! PROOFS. The state after reset (log entries 1 to 5): what its registers read, what its configuration admits, and that
it meets the invariant (R170 to R173). -/

namespace Sys2Proof.Machine

/-! ### The registers after reset -/

@[simp] theorem readMm_reset (i : Fin 8) : readMm State.reset i = 0#512 := by
  simp [readMm, State.reset, Vector.get_eq_getElem]

@[simp] theorem readVec_reset (i : Fin 32) : readVec State.reset i = 0#512 := by
  simp [readVec, State.reset, Vector.get_eq_getElem]

@[simp] theorem readK_reset (i : Fin 8) : readK State.reset i = 0#64 := by
  simp [readK, State.reset, Vector.get_eq_getElem]

@[simp] theorem readG_reset (i : Fin 16) : readG State.reset i = 0#64 := by
  simp [readG, State.reset, Vector.get_eq_getElem]

@[simp] theorem x87Hi_get_reset (i : Fin 8) : State.reset.x87Hi.get i = 0#16 := by
  simp [State.reset, Vector.get_eq_getElem]

/-! ### The configuration after reset -/

theorem formSupported_launchConfig (f : Form) : formSupported launchConfig f = true := by
  cases f <;> decide

theorem os_on_launchConfig (f : Form) : launchConfig.os.on f = true := by
  cases f <;> decide

/-- Grants everywhere in the 48-bit canonical space admit whatever lies inside it (R41, R47). -/
theorem admits_of_everywhere {c : Config} {kind : AccessKind} {n : Nat} (hm : c.mode64 = true) (hla : c.la57 = false)
    (hn : n ≤ 2 ^ 47) (h : everywhere kind n ⊆ c.grants) (a : Nat) : admits c kind a n = inSpace c a n := by
  rw [Bool.eq_iff_iff, admits_iff, and_iff_left_iff_imp]
  intro hin
  have hbits : canonicalBits c = 47 := by simp [canonicalBits, hla]
  rw [inSpace_iff_of_mode64 hm, hbits] at hin
  rcases hin with hlow | ⟨hbase, htop⟩
  · refine ⟨⟨kind, n, 0, 0x800000000001 - n⟩, h (by simp [everywhere]), rfl, rfl, ?_⟩
    dsimp only; omega
  · refine ⟨⟨kind, n, 0xFFFF800000000000, 0x800000000001 - n⟩, h (by simp [everywhere]), rfl, rfl, ?_⟩
    dsimp only; omega

theorem admits_fetch_launchConfig (a : Nat) : admits launchConfig .fetch a 1 = inSpace launchConfig a 1 :=
  admits_of_everywhere rfl rfl (by decide) (by decide) a

theorem admits_read_launchConfig (f : Form) (a : Nat) :
    admits launchConfig .read a (formBytes f) = inSpace launchConfig a (formBytes f) := by
  refine admits_of_everywhere rfl rfl ?_ ?_ a
  · cases f <;> decide
  · cases f <;> decide

/-! ### What is claimed of the state after reset -/

/-- Settles O43: empty memory is in canonical form, zero has no bits above MAXVL, and pc is in the low half. -/
theorem resetMeetsTheInvariant : Obligations.ResetMeetsTheInvariant := by
  have hmem : State.reset.mem.wf := by decide
  have hupper : upperBitsClear State.reset := fun i => by
    rw [readVec_reset, BitVec.toNat_zero]
    exact Nat.two_pow_pos _
  have hpc : inSpace State.reset.cfg State.reset.pc.toNat 1 = true := by decide
  exact ⟨hmem, hupper, hpc, rfl⟩

/-- Settles O45: the registers read zero, and the grants of the launch cover its address space. -/
theorem resetLeavesTheLoggedValues : Obligations.ResetLeavesTheLoggedValues :=
  ⟨rfl, rfl, readMm_reset, readVec_reset, readK_reset, x87Hi_get_reset, rfl, rfl, readG_reset, rfl, fun _ => rfl,
    rfl, rfl, rfl, fun f => ⟨formSupported_launchConfig f, os_on_launchConfig f⟩, rfl, rfl, rfl, rfl, rfl,
    admits_fetch_launchConfig, admits_read_launchConfig⟩

end Sys2Proof.Machine
